-- ==== Sys2Proof/Word.lean ====
section
/-! DEFINITION. The machine's word and its plainest readings (00_scope.md R7). -/

namespace Sys2Proof

/-- One 16-bit word: a register, a memory word, an address, an instruction (R6, R7). -/
abbrev Word := BitVec 16

/-- One byte of a program file; no byte exists inside the machine (R32, R142). -/
abbrev Byte := BitVec 8

/-- `s16(v)` of R7: the two's complement reading of a word. -/
abbrev s16 (v : Word) : Int := v.toInt

end Sys2Proof
end

