-- ==== Sys2Proof/Syntax.lean ====
section
/-! DEFINITION. The instruction set: one constructor for each of the 35 rows of spec/opcode_table.json.

Each instruction carries every bit of its word that its row does not fix, the ignored bits (R62) included as a
field `ign`: the fault record holds the word as it was fetched (R17, R120), and an instruction that has all its
bits can say which word that was. No meaning reads an `ign` field for anything else (log 3). -/

namespace Sys2Proof

/-- The eight general registers; `r0` is the stack pointer (R11, R12). -/
inductive Reg where
  | r0 | r1 | r2 | r3 | r4 | r5 | r6 | r7
  deriving DecidableEq, Repr

/-- The condition codes of BR, in code order 0 to 7 (R108). -/
inductive Cond where
  | eq | ne | gt | lt | ge | le | al
  /-- Code 7: reserved, never true (R63, R108). -/
  | reserved
  deriving DecidableEq, Repr

/-- The sixteen families of the 4-bit opcode field, in code order 0x0 to 0xF (R60); `stack` and `func` hold the
mnemonics that a mode field selects (R71). -/
inductive Opcode where
  | hlt | add | sub | mul | div | and | or | xor
  | shf | mov | ld | st | stack | cmp | br | func
  deriving DecidableEq, Repr

/-- The instructions, in the order of spec/opcode_table.json (R60). -/
inductive Instr where
  /-- `HLT` (R80); `ign` is w[11:0]. -/
  | hlt (ign : BitVec 12)
  /-- `ADD Rd,Rs` (R82); `ign` is w[5:1]. -/
  | addReg (rd rs : Reg) (ign : BitVec 5)
  /-- `ADD Rd,#n` (R82). -/
  | addImm (rd : Reg) (imm : BitVec 8)
  /-- `SUB Rd,Rs` (R83); `ign` is w[5:1]. -/
  | subReg (rd rs : Reg) (ign : BitVec 5)
  /-- `SUB Rd,#n` (R83). -/
  | subImm (rd : Reg) (imm : BitVec 8)
  /-- `MUL Rd,Rs` (R84); `ign` is w[5:1]. -/
  | mulReg (rd rs : Reg) (ign : BitVec 5)
  /-- `MUL Rd,#n` (R84). -/
  | mulImm (rd : Reg) (imm : BitVec 8)
  /-- `DIV Rd,Rs` (R85); `ign` is w[5:1]. -/
  | divReg (rd rs : Reg) (ign : BitVec 5)
  /-- `DIV Rd,#n` (R85). -/
  | divImm (rd : Reg) (imm : BitVec 8)
  /-- `AND Rd,Rs` (R86); `ign` is w[5:1]. -/
  | andReg (rd rs : Reg) (ign : BitVec 5)
  /-- `AND Rd,#n` (R86). -/
  | andImm (rd : Reg) (imm : BitVec 8)
  /-- `OR Rd,Rs` (R87); `ign` is w[5:1]. -/
  | orReg (rd rs : Reg) (ign : BitVec 5)
  /-- `OR Rd,#n` (R87). -/
  | orImm (rd : Reg) (imm : BitVec 8)
  /-- `XOR Rd,Rs` (R88); `ign` is w[5:1]. -/
  | xorReg (rd rs : Reg) (ign : BitVec 5)
  /-- `XOR Rd,#n` (R88). -/
  | xorImm (rd : Reg) (imm : BitVec 8)
  /-- `SHL Rd,Rs` (R91); `idx` is the whole 6-bit field that names the amount register (R90). -/
  | shlReg (rd : Reg) (idx : BitVec 6)
  /-- `SHL Rd,#n` (R91). -/
  | shlImm (rd : Reg) (amt : BitVec 6)
  /-- `SHR Rd,Rs` (R92); `idx` is the whole 6-bit field that names the amount register (R90). -/
  | shrReg (rd : Reg) (idx : BitVec 6)
  /-- `SHR Rd,#n` (R92). -/
  | shrImm (rd : Reg) (amt : BitVec 6)
  /-- `SAR Rd,Rs` (R93); `idx` is the whole 6-bit field that names the amount register (R90). -/
  | sarReg (rd : Reg) (idx : BitVec 6)
  /-- `SAR Rd,#n` (R93). -/
  | sarImm (rd : Reg) (amt : BitVec 6)
  /-- `ROR Rd,Rs` (R94); `idx` is the whole 6-bit field that names the amount register (R90). -/
  | rorReg (rd : Reg) (idx : BitVec 6)
  /-- `ROR Rd,#n` (R94). -/
  | rorImm (rd : Reg) (amt : BitVec 6)
  /-- `MOV Rd,Rs` (R95); `ign` is w[5:1]. -/
  | movReg (rd rs : Reg) (ign : BitVec 5)
  /-- `MOV Rd,#n` (R95). -/
  | movImm (rd : Reg) (imm : BitVec 8)
  /-- `LD Rd,[Rb+k]` (R97). -/
  | ld (rd rb : Reg) (off : BitVec 6)
  /-- `ST Rs,[Rb+k]` (R98). -/
  | st (rs rb : Reg) (off : BitVec 6)
  /-- `PUSH Rs` (R101); `idx` is the whole 9-bit field that names the register (R100), `ign` is w[0]. -/
  | pushReg (idx : BitVec 9) (ign : BitVec 1)
  /-- `POP Rd` (R103); fields as `pushReg`. -/
  | pop (idx : BitVec 9) (ign : BitVec 1)
  /-- `PUSH #n` (R102); `ign` is w[0]. -/
  | pushImm (val : BitVec 9) (ign : BitVec 1)
  /-- STACK with Mode 3, which raises UnknownOpcode (R63, R100, R122); `ign` is w[9:0]. -/
  | stackReserved (ign : BitVec 10)
  /-- `CMP Ra,Rb` (R105); `ign` is w[5:0]. -/
  | cmp (ra rb : Reg) (ign : BitVec 6)
  /-- `BR cc,label` (R109). -/
  | br (c : Cond) (off : BitVec 9)
  /-- `CALL label` (R112). -/
  | call (off : BitVec 11)
  /-- `RET` (R113); `ign` is w[10:0]. -/
  | ret (ign : BitVec 11)
  deriving DecidableEq, Repr

end Sys2Proof
end

