-- ==== Sys2Proof/WellFormed.lean ====
section
/-! DEFINITION. Well-formed instructions: the ones the assembler emits. Every term of `Instr` stands for exactly
one word and the engine executes every word (R22, R62), so no check guards decoding or execution; well-formed means
CONFORMING, with the ignored bits as the assembler writes them (R52 to R59) and no reserved or out-of-range field
(R63, R67). See log 5. -/

namespace Sys2Proof

/-- The word is one that the assembler of 30_encoding.md emits (R56, R62, R63, R67). -/
def Instr.wellFormed : Instr → Bool
  | .hlt ign => ign == 0
  | .addReg _ _ ign | .subReg _ _ ign | .mulReg _ _ ign | .divReg _ _ ign
  | .andReg _ _ ign | .orReg _ _ ign | .xorReg _ _ ign | .movReg _ _ ign => ign == 0
  | .addImm _ _ | .subImm _ _ | .mulImm _ _ | .divImm _ _
  | .andImm _ _ | .orImm _ _ | .xorImm _ _ | .movImm _ _ => true
  | .shlReg _ idx | .shrReg _ idx | .sarReg _ idx | .rorReg _ idx => idx.toNat ≤ 7
  | .shlImm _ _ | .shrImm _ _ | .sarImm _ _ | .rorImm _ _ => true
  | .ld _ _ _ | .st _ _ _ => true
  | .pushReg idx ign | .pop idx ign => idx.toNat ≤ 7 && ign == 0
  | .pushImm _ ign => ign == 1
  | .stackReserved _ => false
  | .cmp _ _ ign => ign == 0
  | .br c _ => c != .reserved
  | .call _ => true
  | .ret ign => ign == 0

/-- The instruction with the bits the engine does not examine (R62) set to zero. -/
def Instr.clearIgnored : Instr → Instr
  | .hlt _ => .hlt 0
  | .addReg rd rs _ => .addReg rd rs 0
  | .addImm rd imm => .addImm rd imm
  | .subReg rd rs _ => .subReg rd rs 0
  | .subImm rd imm => .subImm rd imm
  | .mulReg rd rs _ => .mulReg rd rs 0
  | .mulImm rd imm => .mulImm rd imm
  | .divReg rd rs _ => .divReg rd rs 0
  | .divImm rd imm => .divImm rd imm
  | .andReg rd rs _ => .andReg rd rs 0
  | .andImm rd imm => .andImm rd imm
  | .orReg rd rs _ => .orReg rd rs 0
  | .orImm rd imm => .orImm rd imm
  | .xorReg rd rs _ => .xorReg rd rs 0
  | .xorImm rd imm => .xorImm rd imm
  | .shlReg rd idx => .shlReg rd idx
  | .shlImm rd amt => .shlImm rd amt
  | .shrReg rd idx => .shrReg rd idx
  | .shrImm rd amt => .shrImm rd amt
  | .sarReg rd idx => .sarReg rd idx
  | .sarImm rd amt => .sarImm rd amt
  | .rorReg rd idx => .rorReg rd idx
  | .rorImm rd amt => .rorImm rd amt
  | .movReg rd rs _ => .movReg rd rs 0
  | .movImm rd imm => .movImm rd imm
  | .ld rd rb off => .ld rd rb off
  | .st rs rb off => .st rs rb off
  | .pushReg idx _ => .pushReg idx 0
  | .pop idx _ => .pop idx 0
  | .pushImm val _ => .pushImm val 0
  | .stackReserved _ => .stackReserved 0
  | .cmp ra rb _ => .cmp ra rb 0
  | .br c off => .br c off
  | .call off => .call off
  | .ret _ => .ret 0

end Sys2Proof
end

