-- ==== Sys2Proof/Decode.lean ====
section
/-! DEFINITION. The decoder, total on all 65536 words (R62), and the encoder, both written from the formats of
30_encoding.md R50 to R63; then the opcode table's masks and the interface to a row of the table. -/

namespace Sys2Proof

/-! ### Codes of the fixed names -/

/-- The register a 3-bit field names; every value names one (R11). -/
def Reg.ofBits (b : BitVec 3) : Reg :=
  match b with
  | 0 => .r0 | 1 => .r1 | 2 => .r2 | 3 => .r3
  | 4 => .r4 | 5 => .r5 | 6 => .r6 | _ => .r7

/-- The 3-bit number of a register (R11). -/
def Reg.bits : Reg → BitVec 3
  | .r0 => 0 | .r1 => 1 | .r2 => 2 | .r3 => 3
  | .r4 => 4 | .r5 => 5 | .r6 => 6 | .r7 => 7

/-- The condition a 3-bit code names (R108). -/
def Cond.ofBits (b : BitVec 3) : Cond :=
  match b with
  | 0 => .eq | 1 => .ne | 2 => .gt | 3 => .lt
  | 4 => .ge | 5 => .le | 6 => .al | _ => .reserved

/-- The 3-bit code of a condition (R108). -/
def Cond.bits : Cond → BitVec 3
  | .eq => 0 | .ne => 1 | .gt => 2 | .lt => 3
  | .ge => 4 | .le => 5 | .al => 6 | .reserved => 7

/-- The opcode map: all sixteen values are assigned (R60, R64). -/
def Opcode.ofBits (b : BitVec 4) : Opcode :=
  match b with
  | 0x0 => .hlt | 0x1 => .add | 0x2 => .sub | 0x3 => .mul
  | 0x4 => .div | 0x5 => .and | 0x6 => .or | 0x7 => .xor
  | 0x8 => .shf | 0x9 => .mov | 0xA => .ld | 0xB => .st
  | 0xC => .stack | 0xD => .cmp | 0xE => .br | _ => .func

/-! ### Fields of a word, `w[hi:lo]` (R7, R51) -/

/-- `w[15:12]` (R50). -/
def opcodeField (w : Word) : BitVec 4 := w.extractLsb' 12 4

/-- The register named by `w[11:9]`: Rd, Rsrc or Ra (R53, R54, R55, R57). -/
def rdField (w : Word) : Reg := Reg.ofBits (w.extractLsb' 9 3)

/-- The register named by `w[8:6]`: Rs, Rbase or Rb, the common layout (R53, R55, R57). -/
def rsField (w : Word) : Reg := Reg.ofBits (w.extractLsb' 6 3)

/-- `w[0]`: the immediate-select bit of formats A and S (R53, R54). -/
def immediateBit (w : Word) : Bool := w.getLsbD 0

/-- `w[8:1]`: Imm8 (R53). -/
def imm8Field (w : Word) : BitVec 8 := w.extractLsb' 1 8

/-- `w[5:1]`: ignored in the register form of format A (R53, R62). -/
def aluIgnored (w : Word) : BitVec 5 := w.extractLsb' 1 5

/-- `w[8:3]`: Amount (R54). -/
def amountField (w : Word) : BitVec 6 := w.extractLsb' 3 6

/-- `w[2:1]`: the mode of format S (R54). -/
def shiftModeField (w : Word) : BitVec 2 := w.extractLsb' 1 2

/-- `w[5:0]`: Off6 of LD and ST, ignored in CMP (R55, R57). -/
def low6Field (w : Word) : BitVec 6 := w.extractLsb' 0 6

/-- `w[11:10]`: the mode of format K (R56). -/
def stackModeField (w : Word) : BitVec 2 := w.extractLsb' 10 2

/-- `w[9:1]`: Value (R56). -/
def valueField (w : Word) : BitVec 9 := w.extractLsb' 1 9

/-- `w[0]` of format K: the Imm bit, not examined (R56, R62). -/
def stackImmField (w : Word) : BitVec 1 := w.extractLsb' 0 1

/-- `w[11:9]` as a condition (R58). -/
def condField (w : Word) : Cond := Cond.ofBits (w.extractLsb' 9 3)

/-- `w[8:0]`: Off9 (R58). -/
def off9Field (w : Word) : BitVec 9 := w.extractLsb' 0 9

/-- `w[11]`: the mode of format F, set for RET (R59). -/
def retBit (w : Word) : Bool := w.getLsbD 11

/-- `w[10:0]`: Off11 of CALL, ignored in RET (R59, R62). -/
def off11Field (w : Word) : BitVec 11 := w.extractLsb' 0 11

/-! ### The decoder -/

/-- Opcode 0x8: the mode selects SHL, SHR, SAR or ROR (R54, R60). -/
def decodeShift (w : Word) : Instr :=
  match shiftModeField w with
  | 0 => if immediateBit w then .shlImm (rdField w) (amountField w) else .shlReg (rdField w) (amountField w)
  | 1 => if immediateBit w then .shrImm (rdField w) (amountField w) else .shrReg (rdField w) (amountField w)
  | 2 => if immediateBit w then .sarImm (rdField w) (amountField w) else .sarReg (rdField w) (amountField w)
  | _ => if immediateBit w then .rorImm (rdField w) (amountField w) else .rorReg (rdField w) (amountField w)

/-- Opcode 0xC: the mode alone selects the operation (R56, R100). -/
def decodeStack (w : Word) : Instr :=
  match stackModeField w with
  | 0 => .pushReg (valueField w) (stackImmField w)
  | 1 => .pop (valueField w) (stackImmField w)
  | 2 => .pushImm (valueField w) (stackImmField w)
  | _ => .stackReserved (w.extractLsb' 0 10)

/-- The decoder: every word is one instruction (R62), by the opcode map of R60. -/
def decode (w : Word) : Instr :=
  match Opcode.ofBits (opcodeField w) with
  | .hlt => .hlt (w.extractLsb' 0 12)
  | .add => if immediateBit w then .addImm (rdField w) (imm8Field w) else .addReg (rdField w) (rsField w) (aluIgnored w)
  | .sub => if immediateBit w then .subImm (rdField w) (imm8Field w) else .subReg (rdField w) (rsField w) (aluIgnored w)
  | .mul => if immediateBit w then .mulImm (rdField w) (imm8Field w) else .mulReg (rdField w) (rsField w) (aluIgnored w)
  | .div => if immediateBit w then .divImm (rdField w) (imm8Field w) else .divReg (rdField w) (rsField w) (aluIgnored w)
  | .and => if immediateBit w then .andImm (rdField w) (imm8Field w) else .andReg (rdField w) (rsField w) (aluIgnored w)
  | .or => if immediateBit w then .orImm (rdField w) (imm8Field w) else .orReg (rdField w) (rsField w) (aluIgnored w)
  | .xor => if immediateBit w then .xorImm (rdField w) (imm8Field w) else .xorReg (rdField w) (rsField w) (aluIgnored w)
  | .shf => decodeShift w
  | .mov => if immediateBit w then .movImm (rdField w) (imm8Field w) else .movReg (rdField w) (rsField w) (aluIgnored w)
  | .ld => .ld (rdField w) (rsField w) (low6Field w)
  | .st => .st (rdField w) (rsField w) (low6Field w)
  | .stack => decodeStack w
  | .cmp => .cmp (rdField w) (rsField w) (low6Field w)
  | .br => .br (condField w) (off9Field w)
  | .func => if retBit w then .ret (off11Field w) else .call (off11Field w)

/-- Why a sequence of words, or a table row's bits, is not one instruction. -/
inductive DecodeError where
  /-- There is no word to read. Safe: nothing is decoded. -/
  | noWord
  /-- More bits are given than the one 16-bit word every instruction is (R50). Safe: nothing is decoded. -/
  | longerThanOneWord
  deriving DecidableEq, Repr

/-- Read one instruction from the front of a sequence of words: exactly one word each (R50). -/
def decodeWords : List Word → Except DecodeError (Instr × List Word)
  | [] => .error .noWord
  | w :: rest => .ok (decode w, rest)

/-- The instruction whose bits, numbered as spec/opcode_table.json numbers them, are the low `nbits` of `w`; bits
above `nbits` are 0. More than 16 bits is no instruction of this machine (R50). -/
def decodeTableBits (nbits w : Nat) : Except DecodeError Instr :=
  if 16 < nbits then .error .longerThanOneWord
  else (decodeWords [BitVec.ofNat 16 (w % 2 ^ nbits)]).map Prod.fst

/-- The host's question: which instruction does the decoder read from a table row's bits. -/
def decodeTableWord (nbits w : Nat) : Option Instr := (decodeTableBits nbits w).toOption

/-! ### The encoder, format by format, bit 15 on the left (R51) -/

/-- Format N (R52). -/
def encodeN (ign : BitVec 12) : Word := 0x0#4 ++ ign

/-- Format A, register form (R53). -/
def encodeAReg (op : BitVec 4) (rd rs : Reg) (ign : BitVec 5) : Word := op ++ rd.bits ++ rs.bits ++ ign ++ 0#1

/-- Format A, immediate form (R53). -/
def encodeAImm (op : BitVec 4) (rd : Reg) (imm : BitVec 8) : Word := op ++ rd.bits ++ imm ++ 1#1

/-- Format S (R54). -/
def encodeS (rd : Reg) (amount : BitVec 6) (mode : BitVec 2) (imm : BitVec 1) : Word :=
  0x8#4 ++ rd.bits ++ amount ++ mode ++ imm

/-- Formats M and C, two registers and six bits (R55, R57). -/
def encodeM (op : BitVec 4) (r b : Reg) (low : BitVec 6) : Word := op ++ r.bits ++ b.bits ++ low

/-- Format K (R56). -/
def encodeK (mode : BitVec 2) (value : BitVec 9) (imm : BitVec 1) : Word := 0xC#4 ++ mode ++ value ++ imm

/-- Format B (R58). -/
def encodeB (c : Cond) (off : BitVec 9) : Word := 0xE#4 ++ c.bits ++ off

/-- Format F (R59). -/
def encodeF (mode : BitVec 1) (off : BitVec 11) : Word := 0xF#4 ++ mode ++ off

/-- The word of an instruction (R51 to R59). -/
def encode : Instr → Word
  | .hlt ign => encodeN ign
  | .addReg rd rs ign => encodeAReg 0x1#4 rd rs ign
  | .addImm rd imm => encodeAImm 0x1#4 rd imm
  | .subReg rd rs ign => encodeAReg 0x2#4 rd rs ign
  | .subImm rd imm => encodeAImm 0x2#4 rd imm
  | .mulReg rd rs ign => encodeAReg 0x3#4 rd rs ign
  | .mulImm rd imm => encodeAImm 0x3#4 rd imm
  | .divReg rd rs ign => encodeAReg 0x4#4 rd rs ign
  | .divImm rd imm => encodeAImm 0x4#4 rd imm
  | .andReg rd rs ign => encodeAReg 0x5#4 rd rs ign
  | .andImm rd imm => encodeAImm 0x5#4 rd imm
  | .orReg rd rs ign => encodeAReg 0x6#4 rd rs ign
  | .orImm rd imm => encodeAImm 0x6#4 rd imm
  | .xorReg rd rs ign => encodeAReg 0x7#4 rd rs ign
  | .xorImm rd imm => encodeAImm 0x7#4 rd imm
  | .shlReg rd idx => encodeS rd idx 0#2 0#1
  | .shlImm rd amt => encodeS rd amt 0#2 1#1
  | .shrReg rd idx => encodeS rd idx 1#2 0#1
  | .shrImm rd amt => encodeS rd amt 1#2 1#1
  | .sarReg rd idx => encodeS rd idx 2#2 0#1
  | .sarImm rd amt => encodeS rd amt 2#2 1#1
  | .rorReg rd idx => encodeS rd idx 3#2 0#1
  | .rorImm rd amt => encodeS rd amt 3#2 1#1
  | .movReg rd rs ign => encodeAReg 0x9#4 rd rs ign
  | .movImm rd imm => encodeAImm 0x9#4 rd imm
  | .ld rd rb off => encodeM 0xA#4 rd rb off
  | .st rs rb off => encodeM 0xB#4 rs rb off
  | .pushReg idx ign => encodeK 0#2 idx ign
  | .pop idx ign => encodeK 1#2 idx ign
  | .pushImm val ign => encodeK 2#2 val ign
  | .stackReserved ign => 0xC#4 ++ 3#2 ++ ign
  | .cmp ra rb ign => encodeM 0xD#4 ra rb ign
  | .br c off => encodeB c off
  | .call off => encodeF 0#1 off
  | .ret ign => encodeF 1#1 ign

/-! ### The opcode table -/

/-- The (mask, match) pairs of spec/opcode_table.json, in its order. -/
def opcodeTable : List (Word × Word) :=
  [(0xF000#16, 0x0000#16), (0xF001#16, 0x1000#16), (0xF001#16, 0x1001#16), (0xF001#16, 0x2000#16), (0xF001#16, 0x2001#16),
   (0xF001#16, 0x3000#16), (0xF001#16, 0x3001#16), (0xF001#16, 0x4000#16), (0xF001#16, 0x4001#16), (0xF001#16, 0x5000#16),
   (0xF001#16, 0x5001#16), (0xF001#16, 0x6000#16), (0xF001#16, 0x6001#16), (0xF001#16, 0x7000#16), (0xF001#16, 0x7001#16)] ++
  [(0xF007#16, 0x8000#16), (0xF007#16, 0x8001#16), (0xF007#16, 0x8002#16), (0xF007#16, 0x8003#16), (0xF007#16, 0x8004#16),
   (0xF007#16, 0x8005#16), (0xF007#16, 0x8006#16), (0xF007#16, 0x8007#16), (0xF001#16, 0x9000#16), (0xF001#16, 0x9001#16),
   (0xF000#16, 0xA000#16), (0xF000#16, 0xB000#16), (0xFC00#16, 0xC000#16), (0xFC00#16, 0xC400#16), (0xFC00#16, 0xC800#16),
   (0xFC00#16, 0xCC00#16), (0xF000#16, 0xD000#16), (0xF000#16, 0xE000#16), (0xF800#16, 0xF000#16), (0xF800#16, 0xF800#16)]

/-- A word belongs to row `k` of the table: its bits under the row's mask are the row's match. -/
def matchesRow (w : Word) (k : Nat) : Bool :=
  match opcodeTable[k]? with
  | some (mask, value) => w &&& mask == value
  | none => false

/-- The number of an instruction's row in spec/opcode_table.json, from 0. -/
def Instr.row : Instr → Nat
  | .hlt _ => 0
  | .addReg _ _ _ => 1
  | .addImm _ _ => 2
  | .subReg _ _ _ => 3
  | .subImm _ _ => 4
  | .mulReg _ _ _ => 5
  | .mulImm _ _ => 6
  | .divReg _ _ _ => 7
  | .divImm _ _ => 8
  | .andReg _ _ _ => 9
  | .andImm _ _ => 10
  | .orReg _ _ _ => 11
  | .orImm _ _ => 12
  | .xorReg _ _ _ => 13
  | .xorImm _ _ => 14
  | .shlReg _ _ => 15
  | .shlImm _ _ => 16
  | .shrReg _ _ => 17
  | .shrImm _ _ => 18
  | .sarReg _ _ => 19
  | .sarImm _ _ => 20
  | .rorReg _ _ => 21
  | .rorImm _ _ => 22
  | .movReg _ _ _ => 23
  | .movImm _ _ => 24
  | .ld _ _ _ => 25
  | .st _ _ _ => 26
  | .pushReg _ _ => 27
  | .pop _ _ => 28
  | .pushImm _ _ => 29
  | .stackReserved _ => 30
  | .cmp _ _ _ => 31
  | .br _ _ => 32
  | .call _ => 33
  | .ret _ => 34

end Sys2Proof
end

