-- ==== Sys2Proof/Config.lean ====
section
/-! DEFINITION. The implementation parameters of 00_scope.md R6. The spec fixes every one of them for the
engine, so there is no free value here; FILE_BYTE_ORDER is an argument of the loader (R142). -/

namespace Sys2Proof.Config

/-- RESET_PC (R6, R24): the entry point. -/
def resetPc : Word := 0x0000#16

/-- RESET_SP (R6, R24): the value of `x[0]` after reset, the empty stack. -/
def resetSp : Word := 0xFFFF#16

/-- LOAD_BASE (R6, R141): the address of program word 0. -/
def loadBase : Nat := 0

/-- The number of words of memory (R6, R30). -/
def memWords : Nat := 65536

/-- PROT_LO (R6, R36): the lowest protected address. -/
def protLo : Word := 0x0100#16

/-- PROT_HI (R6, R36): the highest protected address. -/
def protHi : Word := 0x7FFF#16

/-- STACK_LO (R6, R37): a push with SP below it overflows. -/
def stackLo : Word := 0xF000#16

/-- STACK_HI (R6, R38): a pop with SP equal to it underflows. -/
def stackHi : Word := 0xFFFF#16

/-- VRAM_BASE (R6, R39): the first word of the video window, ordinary memory to the engine. -/
def vramBase : Word := 0xE000#16

/-- VRAM_WORDS (R6, R39): 64 × 64 words in the reference configuration. -/
def vramWords : Nat := 4096

end Sys2Proof.Config
end

