-- ==== Sys2Proof/Machine/State.lean ====
section
/-! DEFINITION. The machine's state, plain data, holding every piece the spec names (10_state.md R11 to R19), its
value after reset (R24, R140), and the reasons a step can stop. -/

namespace Sys2Proof.Machine

/-- The register file: eight 16-bit registers (R11); `r0` is the stack pointer (R12). -/
structure RegFile where
  r0 : Word
  r1 : Word
  r2 : Word
  r3 : Word
  r4 : Word
  r5 : Word
  r6 : Word
  r7 : Word
  deriving DecidableEq, Repr

/-- The four status flags, independent booleans (R15). -/
structure Flags where
  /-- Zero, `Z`. -/
  z : Bool
  /-- Negative, `N`. -/
  n : Bool
  /-- Carry (a borrow), `C`. -/
  c : Bool
  /-- Overflow, `V`. -/
  v : Bool
  deriving DecidableEq, Repr

/-- The six causes of a run-time fault, a closed list (R121, R133). -/
inductive FaultCause where
  /-- Code 1: opcode 0xC with Mode 3 (R122). -/
  | unknownOpcode
  /-- Code 2: LD or ST at an address in 0x0100..0x7FFF (R123). -/
  | protectedAccess
  /-- Code 3: PUSH or CALL with SP below 0xF000 (R124). -/
  | stackOverflow
  /-- Code 4: POP or RET with SP = 0xFFFF (R125). -/
  | stackUnderflow
  /-- Code 5: DIV by zero (R126). -/
  | divideByZero
  /-- Code 6: a register index above 7 in a field wider than 3 bits (R127). -/
  | registerIndexOutOfRange
  deriving DecidableEq, Repr

/-- What an instruction raises: a cause and its cause-specific information (R120, R121). -/
structure Trap where
  cause : FaultCause
  info : Word
  deriving DecidableEq, Repr

/-- The fault record's contents (R17): cause, address of the faulting instruction, its word, and the information. -/
structure FaultRecord where
  cause : FaultCause
  addr : Word
  word : Word
  info : Word
  deriving DecidableEq, Repr

/-- Memory as (address, word) cells in one canonical form: addresses strictly rising, below 65536, and no cell
holding 0x0000, which is what an unlisted address reads as (R18, R24, R30; log 1). -/
abbrev Memory := List (Nat × Word)

/-- The whole architectural state (R19). Between steps `pc` is the address of the next instruction; while an
instruction executes it is the post-fetch value (R13). -/
structure State where
  /-- `x[0]` to `x[7]` (R11). -/
  regs : RegFile
  /-- The program counter, a word address (R13). -/
  pc : Word
  /-- `Z`, `N`, `C`, `V` (R15). -/
  flags : Flags
  /-- Running (true) or Halted (false) (R16). -/
  running : Bool
  /-- The fault record, `none` until a fault (R17). -/
  fault : Option FaultRecord
  /-- The 65536 words of memory (R18). -/
  mem : Memory
  deriving DecidableEq, Repr

/-- Reasons a step ends in a host fault: there are NONE. A run-time fault of this machine moves it to Halted and
fills the fault record (R120), which is a next state; every word has a defined effect in every state (R22), and no
address is missing (R30). Nothing raises a value of this type, because it has none. Safe (log 2). -/
inductive Fault where
  deriving DecidableEq, Repr

/-- Reasons a step is refused. -/
inductive Refusal where
  /-- The instruction has no meaning in the model. No arm of `exec` answers it: every instruction is modelled.
  Safe: a run stops. -/
  | notModelled (mnemonic : String)
  deriving DecidableEq, Repr

/-- The state after reset (R24, R140): `x[0]` = 0xFFFF, `pc` at RESET_PC, every other register, flag and memory word
zero, Running, no fault. -/
def State.reset : State where
  regs := ⟨Config.resetSp, 0, 0, 0, 0, 0, 0, 0⟩
  pc := Config.resetPc
  flags := ⟨false, false, false, false⟩
  running := true
  fault := none
  mem := []

end Sys2Proof.Machine
end

