-- ==== Sys2Proof/Machine/Ops.lean ====
section
/-! DEFINITION. The named operations over registers and memory, the stack primitives, raising a fault, and the
fetch. -/

namespace Sys2Proof.Machine

/-! ### Registers (R8, R11) -/

/-- Read `x[r]`. -/
def RegFile.get (f : RegFile) : Reg → Word
  | .r0 => f.r0 | .r1 => f.r1 | .r2 => f.r2 | .r3 => f.r3
  | .r4 => f.r4 | .r5 => f.r5 | .r6 => f.r6 | .r7 => f.r7

/-- Write `x[r] <- v`. -/
def RegFile.set (f : RegFile) (r : Reg) (v : Word) : RegFile :=
  match r with
  | .r0 => { f with r0 := v }
  | .r1 => { f with r1 := v }
  | .r2 => { f with r2 := v }
  | .r3 => { f with r3 := v }
  | .r4 => { f with r4 := v }
  | .r5 => { f with r5 := v }
  | .r6 => { f with r6 := v }
  | .r7 => { f with r7 := v }

/-- `x[r]` of a state; no register is hard-wired (R11). -/
def State.reg (s : State) (r : Reg) : Word := s.regs.get r

/-- `x[r] <- v`. -/
def State.setReg (s : State) (r : Reg) (v : Word) : State := { s with regs := s.regs.set r v }

/-- The register that is the stack pointer, for check and address alike (R12). -/
def spReg : Reg := .r0

/-- SP (R12). -/
def State.sp (s : State) : Word := s.reg spReg

/-- `SP <- v`. -/
def State.setSp (s : State) (v : Word) : State := s.setReg spReg v

/-! ### Memory (R30, R31) -/

/-- What address `a` holds; an unlisted address reads 0x0000 (R24). -/
def Memory.read : Memory → Nat → Word
  | [], _ => 0
  | (k, v) :: rest, a => if k = a then v else Memory.read rest a

/-- The cells of every address but `a`. -/
def Memory.erase : Memory → Nat → Memory
  | [], _ => []
  | (k, v) :: rest, a => if k = a then Memory.erase rest a else (k, v) :: Memory.erase rest a

/-- Put the cell `(a, v)` before the first cell of a higher address. -/
def Memory.insert : Memory → Nat → Word → Memory
  | [], a, v => [(a, v)]
  | (k, u) :: rest, a, v => if a < k then (a, v) :: (k, u) :: rest else (k, u) :: Memory.insert rest a v

/-- `mem[a] <- v`, keeping the canonical form: writing 0x0000 removes the cell. -/
def Memory.write (m : Memory) (a : Nat) (v : Word) : Memory :=
  if v = 0 then m.erase a else (m.erase a).insert a v

/-- The cells lie at strictly rising addresses from `lo`, inside the address space, and none holds 0x0000. -/
def Memory.wfFrom : Nat → Memory → Bool
  | _, [] => true
  | lo, (k, v) :: rest => decide (lo ≤ k) && decide (k < Config.memWords) && v != 0 && Memory.wfFrom (k + 1) rest

/-- The canonical form of memory (log 1). -/
def Memory.wf (m : Memory) : Bool := Memory.wfFrom 0 m

/-- `MemRead(a, 1)` (R31): no check, no side effect. -/
def State.readMem (s : State) (a : Word) : Word := s.mem.read a.toNat

/-- `MemWrite(a, 1, v)` (R31): no check. -/
def State.writeMem (s : State) (a : Word) (v : Word) : State := { s with mem := s.mem.write a.toNat v }

/-! ### Program counter, flags, Halted -/

/-- `pc <- target`. -/
def State.setPc (s : State) (target : Word) : State := { s with pc := target }

/-- Write all four flags. -/
def State.setFlags (s : State) (f : Flags) : State := { s with flags := f }

/-- `running <- 0` (R16, R80). -/
def State.halt (s : State) : State := { s with running := false }

/-! ### The stack primitives -/

/-- `Push(v)` (R37): overflow when SP lies below the stack range, else store at SP, then decrement. -/
def push (v : Word) (s : State) : Except Trap State :=
  if s.sp < Config.stackLo then .error ⟨.stackOverflow, s.sp⟩
  else .ok ((s.writeMem s.sp v).setSp (s.sp - 1))

/-- `Pop()` (R38): underflow when SP is the empty stack's, else increment SP, then read there. Answers the word and
the state with SP moved; the word stays in memory. -/
def popWord (s : State) : Except Trap (Word × State) :=
  if s.sp = Config.stackHi then .error ⟨.stackUnderflow, s.sp⟩
  else .ok (s.readMem (s.sp + 1), s.setSp (s.sp + 1))

/-! ### Raising a fault (60_exceptions.md) -/

/-- The numeric code of a cause (R121). -/
def FaultCause.code : FaultCause → Nat
  | .unknownOpcode => 1
  | .protectedAccess => 2
  | .stackOverflow => 3
  | .stackUnderflow => 4
  | .divideByZero => 5
  | .registerIndexOutOfRange => 6

/-- `raise` (R120): `running <- 0` and `fault <- (cause, a, w, info)`, nothing else. The state is the one the execute
phase began with, so `pc` is `a + 1` and stays there; `a` is read back from it. There is no handler and no return
from a fault (R129, R130): only reset leaves Halted. -/
def raiseFault (t : Trap) (w : Word) (s : State) : State :=
  { s with running := false, fault := some ⟨t.cause, s.pc - 1, w, t.info⟩ }

/-- The end of an execute phase that began in `s`, of an instruction with word `w`: the state it computed, or, when
it raised, `s` itself with the fault taken, so that no partial effect is left (R120). -/
def complete (w : Word) (s : State) : Except Trap State → Host.Outcome State Fault Refusal
  | .ok t => .next t
  | .error trap => .next (raiseFault trap w s)

/-! ### The fetch (R21) -/

/-- The word at the program counter. No address is refused (R14, R36). -/
def fetchWord (s : State) : Word := s.readMem s.pc

/-- `pc <- a +16 1`, the advance at fetch, wrapping at the top of memory (R13, R14). -/
def advancePc (s : State) : State := s.setPc (s.pc + 1)

/-- Place a word where the next step fetches, and let the machine run (log 11). -/
def placeAtPc (s : State) (w : Word) : State := { s.writeMem s.pc w with running := true }

end Sys2Proof.Machine
end

