-- ==== Sys2Proof/Machine/Operands.lean ====
section
/-! DEFINITION. Every operand form of the instruction set (30_encoding.md R61). -/

namespace Sys2Proof.Machine

/-- The register form of the second operand `B` (R81). -/
def regOperand (s : State) (rs : Reg) : Word := s.reg rs

/-- The immediate form of the second operand `B`: Imm8, zero-extended (R61, R81). -/
def immOperand (imm : BitVec 8) : Word := imm.setWidth 16

/-- A register index held in a field wider than 3 bits: the whole field is the index, and a value above 7 names no
register (R90, R100, R127). -/
def wideRegIndex {n : Nat} (f : BitVec n) : Except Trap Reg :=
  if 7 < f.toNat then .error ⟨.registerIndexOutOfRange, f.setWidth 16⟩ else .ok (Reg.ofBits (f.setWidth 3))

/-- The immediate shift amount, 0 to 63 (R90). -/
def immAmount (amt : BitVec 6) : Nat := amt.toNat

/-- The register shift amount: the whole register, unsigned, unmasked (R90). -/
def regAmount (idx : BitVec 6) (s : State) : Except Trap Nat :=
  (wideRegIndex idx).map fun r => (s.reg r).toNat

/-- Val9 of PUSH immediate, zero-extended (R61, R102). -/
def val9Operand (val : BitVec 9) : Word := val.setWidth 16

/-- The effective address of LD and ST: `x[Rbase]` plus the sign-extended Off6, in words, mod 65536 (R40, R96). -/
def effectiveAddress (s : State) (rb : Reg) (off : BitVec 6) : Word := s.reg rb + off.signExtend 16

/-- The protected range (R36). -/
def isProtected (a : Word) : Bool := decide (Config.protLo ≤ a) && decide (a ≤ Config.protHi)

/-- The address an LD or ST may access: the effective address, unless it is protected (R96). -/
def dataAddress (s : State) (rb : Reg) (off : BitVec 6) : Except Trap Word :=
  if isProtected (effectiveAddress s rb off) then .error ⟨.protectedAccess, effectiveAddress s rb off⟩
  else .ok (effectiveAddress s rb off)

/-- The target of BR: the post-fetch pc plus the sign-extended Off9, mod 65536 (R109). -/
def branchTarget (s : State) (off : BitVec 9) : Word := s.pc + off.signExtend 16

/-- The target of CALL: the post-fetch pc plus the sign-extended Off11, mod 65536 (R112). -/
def callTarget (s : State) (off : BitVec 11) : Word := s.pc + off.signExtend 16

end Sys2Proof.Machine
end

