-- ==== Sys2Proof/Machine/Alu.lean ====
section
/-! DEFINITION. HLT, MOV and the arithmetic and logic family (40_hlt.md R80, 41_alu.md R81 to R89, 43_mov.md R95). None writes
a flag (R15). -/

namespace Sys2Proof.Machine

/-- HLT (R80): `running <- 0`; the fault record stays as it is. -/
def execHlt (s : State) : Host.Outcome State Fault Refusal := .next s.halt

/-- `x[d] <- f(A, B)` with `A` and `B` both read before the write (R81). -/
def aluWrite (f : Word → Word → Word) (rd : Reg) (b : Word) (s : State) : Host.Outcome State Fault Refusal :=
  .next (s.setReg rd (f (s.reg rd) b))

/-- ADD: `x[d] <- (A + B) mod 65536`, register form (R82). -/
def execAddReg (rd rs : Reg) (s : State) : Host.Outcome State Fault Refusal := aluWrite (· + ·) rd (regOperand s rs) s

/-- ADD: `x[d] <- (A + B) mod 65536`, immediate form (R82). -/
def execAddImm (rd : Reg) (imm : BitVec 8) (s : State) : Host.Outcome State Fault Refusal := aluWrite (· + ·) rd (immOperand imm) s

/-- SUB: `x[d] <- (A − B) mod 65536`, register form (R83). -/
def execSubReg (rd rs : Reg) (s : State) : Host.Outcome State Fault Refusal := aluWrite (· - ·) rd (regOperand s rs) s

/-- SUB: `x[d] <- (A − B) mod 65536`, immediate form (R83). -/
def execSubImm (rd : Reg) (imm : BitVec 8) (s : State) : Host.Outcome State Fault Refusal := aluWrite (· - ·) rd (immOperand imm) s

/-- MUL: the low 16 bits of the product, register form (R84). -/
def execMulReg (rd rs : Reg) (s : State) : Host.Outcome State Fault Refusal := aluWrite (· * ·) rd (regOperand s rs) s

/-- MUL: the low 16 bits of the product, immediate form (R84). -/
def execMulImm (rd : Reg) (imm : BitVec 8) (s : State) : Host.Outcome State Fault Refusal := aluWrite (· * ·) rd (immOperand imm) s

/-- AND: bitwise and, register form (R86). -/
def execAndReg (rd rs : Reg) (s : State) : Host.Outcome State Fault Refusal := aluWrite (· &&& ·) rd (regOperand s rs) s

/-- AND: bitwise and, immediate form (R86). -/
def execAndImm (rd : Reg) (imm : BitVec 8) (s : State) : Host.Outcome State Fault Refusal := aluWrite (· &&& ·) rd (immOperand imm) s

/-- OR: bitwise or, register form (R87). -/
def execOrReg (rd rs : Reg) (s : State) : Host.Outcome State Fault Refusal := aluWrite (· ||| ·) rd (regOperand s rs) s

/-- OR: bitwise or, immediate form (R87). -/
def execOrImm (rd : Reg) (imm : BitVec 8) (s : State) : Host.Outcome State Fault Refusal := aluWrite (· ||| ·) rd (immOperand imm) s

/-- XOR: bitwise exclusive or, register form (R88). -/
def execXorReg (rd rs : Reg) (s : State) : Host.Outcome State Fault Refusal := aluWrite (· ^^^ ·) rd (regOperand s rs) s

/-- XOR: bitwise exclusive or, immediate form (R88). -/
def execXorImm (rd : Reg) (imm : BitVec 8) (s : State) : Host.Outcome State Fault Refusal := aluWrite (· ^^^ ·) rd (immOperand imm) s

/-- DIV (R85): the unsigned quotient, or DivideByZero when the divisor is zero. -/
def divide (rd : Reg) (b : Word) (s : State) : Except Trap State :=
  if b = 0 then .error ⟨.divideByZero, 0⟩ else .ok (s.setReg rd (s.reg rd / b))

/-- DIV, register form (R85). -/
def execDivReg (rd rs : Reg) (ign : BitVec 5) (s : State) : Host.Outcome State Fault Refusal :=
  complete (encode (.divReg rd rs ign)) s (divide rd (regOperand s rs) s)

/-- DIV, immediate form (R85). -/
def execDivImm (rd : Reg) (imm : BitVec 8) (s : State) : Host.Outcome State Fault Refusal :=
  complete (encode (.divImm rd imm)) s (divide rd (immOperand imm) s)

/-- MOV, register form (R95). -/
def execMovReg (rd rs : Reg) (s : State) : Host.Outcome State Fault Refusal := .next (s.setReg rd (regOperand s rs))

/-- MOV, immediate form (R95). -/
def execMovImm (rd : Reg) (imm : BitVec 8) (s : State) : Host.Outcome State Fault Refusal := .next (s.setReg rd (immOperand imm))

end Sys2Proof.Machine
end

