-- ==== Sys2Proof/Machine/Flags.lean ====
section
/-! DEFINITION. Every flag computation: CMP writes the flags (R105), BR reads them (R108). -/

namespace Sys2Proof.Machine

/-- The four flags of CMP on `a` and `b`, with `r` the 16-bit difference (R105): `N` is the sign bit of the wrapped
difference, `C` the unsigned borrow, `V` set when the operands' signs differ and the result's differs from `a`'s. -/
def compareFlags (a b : Word) : Flags where
  z := a - b == 0
  n := (a - b).msb
  c := decide (a < b)
  v := a.msb != b.msb && (a - b).msb != a.msb

/-- The condition function of BR: it reads `Z` and `N` only (R108). -/
def condHolds (f : Flags) : Cond → Bool
  | .eq => f.z
  | .ne => !f.z
  | .gt => !f.n && !f.z
  | .lt => f.n
  | .ge => !f.n || f.z
  | .le => f.n || f.z
  | .al => true
  | .reserved => false

end Sys2Proof.Machine
end

