-- ==== Sys2Proof/Machine/Control.lean ====
section
/-! DEFINITION. Compare, conditional branch and subroutine linkage (46_cmp.md R105, 47_branch.md R109, 48_call_ret.md R112, R113). -/

namespace Sys2Proof.Machine

/-- CMP (R105): writes the four flags and nothing else. -/
def execCmp (ra rb : Reg) (s : State) : Host.Outcome State Fault Refusal := .next (s.setFlags (compareFlags (s.reg ra) (s.reg rb)))

/-- BR (R109): a taken branch adds the offset to the post-fetch pc; one not taken leaves it. -/
def execBr (c : Cond) (off : BitVec 9) (s : State) : Host.Outcome State Fault Refusal :=
  .next (if condHolds s.flags c then s.setPc (branchTarget s off) else s)

/-- CALL (R112): push the post-fetch pc, then add the offset to it. -/
def execCall (off : BitVec 11) (s : State) : Host.Outcome State Fault Refusal :=
  complete (encode (.call off)) s ((push s.pc s).map fun t => t.setPc (callTarget s off))

/-- RET (R113): `pc <- Pop()`. -/
def execRet (ign : BitVec 11) (s : State) : Host.Outcome State Fault Refusal :=
  complete (encode (.ret ign)) s ((popWord s).map fun p => p.2.setPc p.1)

end Sys2Proof.Machine
end

