-- ==== Sys2Proof/Machine/DataMemory.lean ====
section
/-! DEFINITION. Load, store and the stack (44_load_store.md R96 to R98, 45_stack.md R100 to R103). None writes a flag (R15). -/

namespace Sys2Proof.Machine

/-- LD (R97): `x[r] <- mem[ea]`, or ProtectedAccess. -/
def execLd (rd rb : Reg) (off : BitVec 6) (s : State) : Host.Outcome State Fault Refusal :=
  complete (encode (.ld rd rb off)) s ((dataAddress s rb off).map fun ea => s.setReg rd (s.readMem ea))

/-- ST (R98): `mem[ea] <- x[r]`, or ProtectedAccess. -/
def execSt (rs rb : Reg) (off : BitVec 6) (s : State) : Host.Outcome State Fault Refusal :=
  complete (encode (.st rs rb off)) s ((dataAddress s rb off).map fun ea => s.writeMem ea (s.reg rs))

/-- PUSH register (R101): the index check comes before the stack check (R100, R128), and the register is read before
SP moves. -/
def execPushReg (idx : BitVec 9) (ign : BitVec 1) (s : State) : Host.Outcome State Fault Refusal :=
  complete (encode (.pushReg idx ign)) s ((wideRegIndex idx).bind fun r => push (s.reg r) s)

/-- POP (R103): SP moves first, the destination is written last. -/
def execPop (idx : BitVec 9) (ign : BitVec 1) (s : State) : Host.Outcome State Fault Refusal :=
  complete (encode (.pop idx ign)) s
    ((wideRegIndex idx).bind fun r => (popWord s).map fun p => p.2.setReg r p.1)

/-- PUSH immediate (R102). -/
def execPushImm (val : BitVec 9) (ign : BitVec 1) (s : State) : Host.Outcome State Fault Refusal :=
  complete (encode (.pushImm val ign)) s (push (val9Operand val) s)

/-- STACK Mode 3 (R100, R122): raises UnknownOpcode, with the opcode as information; the stack is not examined. -/
def execStackReserved (ign : BitVec 10) (s : State) : Host.Outcome State Fault Refusal :=
  complete (encode (.stackReserved ign)) s (.error ⟨.unknownOpcode, 0xC⟩)

end Sys2Proof.Machine
end

