-- ==== Sys2Proof/Machine/Shift.lean ====
section
/-! DEFINITION. The shifts and the rotate (42_shift.md R90 to R94). None writes a flag (R15). -/

namespace Sys2Proof.Machine

/-- SHL (R91): shift left, zeros enter at bit 0; zero for every n ≥ 16. -/
def shiftLeft (a : Word) (n : Nat) : Word := a <<< n

/-- SHR (R92): logical shift right, zeros enter at bit 15; zero for every n ≥ 16. -/
def shiftRight (a : Word) (n : Nat) : Word := a >>> n

/-- SAR (R93): arithmetic shift right, bit 15 copied into the vacated bits. -/
def shiftArith (a : Word) (n : Nat) : Word := a.sshiftRight n

/-- ROR (R94): rotate right by n mod 16. -/
def rotateRight16 (a : Word) (n : Nat) : Word := a.rotateRight (n % 16)

/-- Shift `x[d]` in place by an immediate amount (R90). -/
def shiftByImm (f : Word → Nat → Word) (rd : Reg) (amt : BitVec 6) (s : State) : Host.Outcome State Fault Refusal :=
  .next (s.setReg rd (f (s.reg rd) (immAmount amt)))

/-- Shift `x[d]` in place by a register's value; an index above 7 raises (R90). -/
def shiftByReg (f : Word → Nat → Word) (rd : Reg) (idx : BitVec 6) (s : State) : Except Trap State :=
  (regAmount idx s).map fun n => s.setReg rd (f (s.reg rd) n)

/-- SHL by a register (R91). -/
def execShlReg (rd : Reg) (idx : BitVec 6) (s : State) : Host.Outcome State Fault Refusal :=
  complete (encode (.shlReg rd idx)) s (shiftByReg shiftLeft rd idx s)

/-- SHL by an immediate (R91). -/
def execShlImm (rd : Reg) (amt : BitVec 6) (s : State) : Host.Outcome State Fault Refusal := shiftByImm shiftLeft rd amt s

/-- SHR by a register (R92). -/
def execShrReg (rd : Reg) (idx : BitVec 6) (s : State) : Host.Outcome State Fault Refusal :=
  complete (encode (.shrReg rd idx)) s (shiftByReg shiftRight rd idx s)

/-- SHR by an immediate (R92). -/
def execShrImm (rd : Reg) (amt : BitVec 6) (s : State) : Host.Outcome State Fault Refusal := shiftByImm shiftRight rd amt s

/-- SAR by a register (R93). -/
def execSarReg (rd : Reg) (idx : BitVec 6) (s : State) : Host.Outcome State Fault Refusal :=
  complete (encode (.sarReg rd idx)) s (shiftByReg shiftArith rd idx s)

/-- SAR by an immediate (R93). -/
def execSarImm (rd : Reg) (amt : BitVec 6) (s : State) : Host.Outcome State Fault Refusal := shiftByImm shiftArith rd amt s

/-- ROR by a register (R94). -/
def execRorReg (rd : Reg) (idx : BitVec 6) (s : State) : Host.Outcome State Fault Refusal :=
  complete (encode (.rorReg rd idx)) s (shiftByReg rotateRight16 rd idx s)

/-- ROR by an immediate (R94). -/
def execRorImm (rd : Reg) (amt : BitVec 6) (s : State) : Host.Outcome State Fault Refusal := shiftByImm rotateRight16 rd amt s

end Sys2Proof.Machine
end

