-- ==== Sys2Proof/Machine/Dispatch.lean ====
section
/-! DEFINITION. The execute phase, one arm for each row of spec/opcode_table.json (R60, R64). The state given is the
one after the fetch, its `pc` the post-fetch value (R13; log 4). -/

namespace Sys2Proof.Machine

def exec (i : Instr) (s : State) : Host.Outcome State Fault Refusal :=
  match i with
  | .hlt _ => Sys2Proof.Machine.execHlt s
  | .addReg rd rs _ => Sys2Proof.Machine.execAddReg rd rs s
  | .addImm rd imm => Sys2Proof.Machine.execAddImm rd imm s
  | .subReg rd rs _ => Sys2Proof.Machine.execSubReg rd rs s
  | .subImm rd imm => Sys2Proof.Machine.execSubImm rd imm s
  | .mulReg rd rs _ => Sys2Proof.Machine.execMulReg rd rs s
  | .mulImm rd imm => Sys2Proof.Machine.execMulImm rd imm s
  | .divReg rd rs ign => Sys2Proof.Machine.execDivReg rd rs ign s
  | .divImm rd imm => Sys2Proof.Machine.execDivImm rd imm s
  | .andReg rd rs _ => Sys2Proof.Machine.execAndReg rd rs s
  | .andImm rd imm => Sys2Proof.Machine.execAndImm rd imm s
  | .orReg rd rs _ => Sys2Proof.Machine.execOrReg rd rs s
  | .orImm rd imm => Sys2Proof.Machine.execOrImm rd imm s
  | .xorReg rd rs _ => Sys2Proof.Machine.execXorReg rd rs s
  | .xorImm rd imm => Sys2Proof.Machine.execXorImm rd imm s
  | .shlReg rd idx => Sys2Proof.Machine.execShlReg rd idx s
  | .shlImm rd amt => Sys2Proof.Machine.execShlImm rd amt s
  | .shrReg rd idx => Sys2Proof.Machine.execShrReg rd idx s
  | .shrImm rd amt => Sys2Proof.Machine.execShrImm rd amt s
  | .sarReg rd idx => Sys2Proof.Machine.execSarReg rd idx s
  | .sarImm rd amt => Sys2Proof.Machine.execSarImm rd amt s
  | .rorReg rd idx => Sys2Proof.Machine.execRorReg rd idx s
  | .rorImm rd amt => Sys2Proof.Machine.execRorImm rd amt s
  | .movReg rd rs _ => Sys2Proof.Machine.execMovReg rd rs s
  | .movImm rd imm => Sys2Proof.Machine.execMovImm rd imm s
  | .ld rd rb off => Sys2Proof.Machine.execLd rd rb off s
  | .st rs rb off => Sys2Proof.Machine.execSt rs rb off s
  | .pushReg idx ign => Sys2Proof.Machine.execPushReg idx ign s
  | .pop idx ign => Sys2Proof.Machine.execPop idx ign s
  | .pushImm val ign => Sys2Proof.Machine.execPushImm val ign s
  | .stackReserved ign => Sys2Proof.Machine.execStackReserved ign s
  | .cmp ra rb _ => Sys2Proof.Machine.execCmp ra rb s
  | .br c off => Sys2Proof.Machine.execBr c off s
  | .call off => Sys2Proof.Machine.execCall off s
  | .ret ign => Sys2Proof.Machine.execRet ign s

end Sys2Proof.Machine
end

