-- ==== Sys2Proof/Machine/Step.lean ====
section
/-! DEFINITION. One step of the engine (10_state.md R20, R21) and the host's way to place an instruction. -/

namespace Sys2Proof.Machine

/-- Running: fetch the word at `pc`, advance `pc`, decode, execute (R21). Halted: nothing changes (R20). -/
def step (s : State) : Host.Outcome State Fault Refusal :=
  if s.running then exec (decode (fetchWord s)) (advancePc s) else .next s

/-- `s` with the instruction whose bits are the low `nbits` of `w` stored at its program counter, and Running, so that
the very next step runs it (log 11). -/
def State.withFetchWord (s : State) (nbits w : Nat) : State :=
  placeAtPc s (BitVec.ofNat 16 (w % 2 ^ nbits))

end Sys2Proof.Machine
end

