-- ==== Sys2Proof/Machine/Assembler.lean ====
section
/-! DEFINITION. The two-pass assembler, as far as it fixes the words it emits (00_scope.md R4; 30_encoding.md R65 to
R72). Text is a list of characters; the result is one word for each instruction line, or one diagnostic and no
words (R70). What the spec leaves open is fixed as log 13 says. -/

namespace Sys2Proof.Machine

/-- Source text, or a piece of it. -/
abbrev Text := List Char

/-! ### Diagnostics (R69, R70) -/

/-- The fields with a range (R61, R68, R69). -/
inductive AsmField where
  | imm8 | amount | val9 | off6 | off9 | off11
  deriving DecidableEq, Repr

/-- The least value of a field. -/
def AsmField.least : AsmField → Int
  | .imm8 | .amount | .val9 => 0
  | .off6 => -32
  | .off9 => -256
  | .off11 => -1024

/-- The greatest value of a field. -/
def AsmField.greatest : AsmField → Int
  | .imm8 => 255
  | .amount => 63
  | .val9 => 511
  | .off6 => 31
  | .off9 => 255
  | .off11 => 1023

/-- The assembly-time errors (R65, R70). Each aborts the whole assembly; safe: no word is emitted. -/
inductive AsmErrorKind where
  /-- The first token is no mnemonic of R67. -/
  | unknownMnemonic
  /-- A token where a register must stand is none of r0..r7. -/
  | unknownRegister
  /-- A value does not fit its field; the field's limits are `least` and `greatest`. -/
  | fieldOverflow (field : AsmField)
  /-- A label operand that no line defines (R68). -/
  | unresolvedLabel
  /-- A label defined twice (R65). -/
  | duplicateLabel
  /-- A label definition whose name is empty or holds white space (R65). -/
  | badLabel
  /-- The second token of BR is no condition of R67. -/
  | unknownCondition
  /-- Operands of the wrong number or form for the mnemonic (R66, R67). -/
  | badOperands
  deriving DecidableEq, Repr

/-- A diagnostic: it identifies the mnemonic, the operand and the line (R70). -/
structure AsmError where
  kind : AsmErrorKind
  /-- The mnemonic of the instruction at fault, as written; `none` when a label definition is at fault. -/
  mnemonic : Option Text
  /-- The operand at fault, as written: one token, or all operands when their number or form is wrong. For an
  unknown mnemonic it is the mnemonic, for a label definition the label. -/
  token : Text
  /-- The line, counted from 1. -/
  line : Nat
  deriving DecidableEq, Repr

/-- An error before its mnemonic and line are known. -/
abbrev AsmFault := AsmErrorKind × Text

/-! ### Characters, lines and tokens (R65, R66) -/

/-- White space inside a line. -/
def isBlank (c : Char) : Bool := c == ' ' || c == '\t' || c == '\r'

/-- What separates operands: white space, a comma, or both (R66, D26). -/
def isSeparator (c : Char) : Bool := isBlank c || c == ','

/-- The lines of a text. -/
def splitLines : Text → List Text
  | [] => [[]]
  | c :: cs =>
    if c = '\n' then [] :: splitLines cs
    else
      match splitLines cs with
      | [] => [[c]]
      | l :: ls => (c :: l) :: ls

/-- Leading and trailing white space removed (R65). -/
def trim (t : Text) : Text := ((t.dropWhile isBlank).reverse.dropWhile isBlank).reverse

/-- Everything from the first `;` removed (R65). -/
def stripComment (t : Text) : Text := t.takeWhile (· != ';')

/-- The operands of an instruction: the non-empty pieces between separators. R66 speaks of separators BETWEEN operands
only. DESIGN CHOICE (log 13): a run of separators counts as one, and stray ones, commas too, before the first operand or
after the last are skipped, so `ADD ,r1,r2`, `ADD r1,r2,` and `HLT ,` are accepted. Unsafe for such a text. -/
def splitTokens : Text → List Text
  | [] => []
  | c :: cs =>
    if isSeparator c then splitTokens cs
    else
      match cs with
      | [] => [[c]]
      | c' :: _ =>
        if isSeparator c' then [c] :: splitTokens cs
        else
          match splitTokens cs with
          | [] => [[c]]
          | t :: ts => (c :: t) :: ts

/-- Letters in lower case: mnemonics and register names are case-insensitive (R65). -/
def lower (t : Text) : Text := t.map Char.toLower

/-! ### Operands (R66, R67) -/

/-- The value of a decimal digit. -/
def digitValue (c : Char) : Option Nat :=
  if '0'.toNat ≤ c.toNat ∧ c.toNat ≤ '9'.toNat then some (c.toNat - '0'.toNat) else none

/-- The digits still to read, after those whose value is `acc`. -/
def readDigits : Nat → Text → Option Nat
  | acc, [] => some acc
  | acc, c :: cs => (digitValue c).bind fun d => readDigits (10 * acc + d) cs

/-- An unsigned decimal number: at least one digit. -/
def readNat : Text → Option Nat
  | [] => none
  | c :: cs => readDigits 0 (c :: cs)

/-- A decimal integer with an optional leading `-`. -/
def readInt : Text → Option Int
  | '-' :: cs => (readNat cs).map fun n => -(n : Int)
  | cs => (readNat cs).map fun n => (n : Int)

/-- A register token `r0`..`r7`. -/
def readReg (t : Text) : Except AsmFault Reg :=
  match lower t with
  | ['r', c] =>
    match digitValue c with
    | some d => if d < 8 then .ok (Reg.ofBits (BitVec.ofNat 3 d)) else .error (.unknownRegister, t)
    | none => .error (.unknownRegister, t)
  | _ => .error (.unknownRegister, t)

/-- A value that must fit its field, as the field's bits (R61, R69). -/
def fitField (field : AsmField) (n : Nat) (t : Text) (v : Int) : Except AsmFault (BitVec n) :=
  if field.least ≤ v ∧ v ≤ field.greatest then .ok (BitVec.ofInt n v) else .error (.fieldOverflow field, t)

/-- An immediate token `#<integer>` for a field of `n` bits. -/
def readImm (field : AsmField) (n : Nat) (t : Text) : Except AsmFault (BitVec n) :=
  match t with
  | '#' :: cs =>
    match readInt cs with
    | some v => fitField field n t v
    | none => .error (.badOperands, t)
  | _ => .error (.badOperands, t)

/-- An immediate token begins with `#`. -/
def isImm (t : Text) : Bool := t.head? == some '#'

/-- The signed offset after the register of a memory operand: nothing, `+k`, `+-k` or `-k`. -/
def readOffset : Text → Option Int
  | [] => some 0
  | '+' :: cs => readInt cs
  | '-' :: cs => (readNat cs).map fun n => -(n : Int)
  | _ => none

/-- A memory operand `[rN]`, `[rN+k]`, `[rN-k]`, `[rN+-k]`. -/
def readMemOperand (t : Text) : Except AsmFault (Reg × BitVec 6) :=
  match t with
  | '[' :: cs =>
    if cs.getLast? == some ']' then do
      let inner := cs.dropLast
      let rb ← readReg (inner.takeWhile fun c => c != '+' && c != '-')
      match readOffset (inner.dropWhile fun c => c != '+' && c != '-') with
      | some v => return (rb, ← fitField .off6 6 t v)
      | none => .error (.badOperands, t)
    else .error (.badOperands, t)
  | _ => .error (.badOperands, t)

/-- The condition names; the reserved code 7 has none (R67, R108). -/
def condNames : List (Text × Cond) :=
  [("eq".toList, .eq), ("ne".toList, .ne), ("gt".toList, .gt), ("lt".toList, .lt),
   ("ge".toList, .ge), ("le".toList, .le), ("al".toList, .al)]

/-- A condition token. -/
def readCond (t : Text) : Except AsmFault Cond :=
  match condNames.lookup (lower t) with
  | some c => .ok c
  | none => .error (.unknownCondition, t)

/-! ### Labels (R65, R68) -/

/-- Labels with the instruction index each stands for. -/
abbrev LabelTable := List (Text × Nat)

/-- The offset of a target, relative to the address after the instruction at `current` (R68). -/
def labelDistance (current target : Nat) : Int := (target : Int) - ((current : Int) + 1)

/-- A label operand as the offset field of the instruction at index `current` (R68). -/
def readLabel (field : AsmField) (n : Nat) (labels : LabelTable) (current : Nat) (t : Text) : Except AsmFault (BitVec n) :=
  match labels.lookup t with
  | some target => fitField field n t (labelDistance current target)
  | none => .error (.unresolvedLabel, t)

/-! ### Instructions (R67) -/

/-- The 21 mnemonics (R67, R71). -/
inductive Mnemonic where
  | hlt | add | sub | mul | div | and | or | xor | shl | shr | sar | ror | mov
  | ld | st | push | pop | cmp | br | call | ret
  deriving DecidableEq, Repr

/-- The spelling of each mnemonic, in lower case. -/
def mnemonicNames : List (Text × Mnemonic) :=
  [("hlt".toList, .hlt), ("add".toList, .add), ("sub".toList, .sub), ("mul".toList, .mul),
   ("div".toList, .div), ("and".toList, .and), ("or".toList, .or), ("xor".toList, .xor),
   ("shl".toList, .shl), ("shr".toList, .shr), ("sar".toList, .sar), ("ror".toList, .ror),
   ("mov".toList, .mov), ("ld".toList, .ld), ("st".toList, .st), ("push".toList, .push),
   ("pop".toList, .pop), ("cmp".toList, .cmp), ("br".toList, .br), ("call".toList, .call),
   ("ret".toList, .ret)]

/-- `OP Rd,Rs` or `OP Rd,#n` of format A. -/
def asmAlu (imm : Reg → BitVec 8 → Instr) (reg : Reg → Reg → Instr) (d b : Text) : Except AsmFault Instr := do
  let rd ← readReg d
  if isImm b then return imm rd (← readImm .imm8 8 b) else return reg rd (← readReg b)

/-- `OP Rd,Rs` or `OP Rd,#n` of format S; a register's index fills the low bits of the amount field (R67). -/
def asmShift (imm reg : Reg → BitVec 6 → Instr) (d b : Text) : Except AsmFault Instr := do
  let rd ← readReg d
  if isImm b then return imm rd (← readImm .amount 6 b) else return reg rd ((← readReg b).bits.setWidth 6)

/-- `LD Rd,[Rb+k]` or `ST Rs,[Rb+k]`: the register stands first (R67). -/
def asmMem (mk : Reg → Reg → BitVec 6 → Instr) (r m : Text) : Except AsmFault Instr := do
  let reg ← readReg r
  let (rb, off) ← readMemOperand m
  return mk reg rb off

/-- One instruction, from its mnemonic and operands, at index `current`. -/
def asmInstr (labels : LabelTable) (current : Nat) (m : Mnemonic) (ops : List Text) : Except AsmFault Instr :=
  match m, ops with
  | .hlt, [] => .ok (.hlt 0)
  | .add, [d, b] => asmAlu .addImm (.addReg · · 0) d b
  | .sub, [d, b] => asmAlu .subImm (.subReg · · 0) d b
  | .mul, [d, b] => asmAlu .mulImm (.mulReg · · 0) d b
  | .div, [d, b] => asmAlu .divImm (.divReg · · 0) d b
  | .and, [d, b] => asmAlu .andImm (.andReg · · 0) d b
  | .or, [d, b] => asmAlu .orImm (.orReg · · 0) d b
  | .xor, [d, b] => asmAlu .xorImm (.xorReg · · 0) d b
  | .mov, [d, b] => asmAlu .movImm (.movReg · · 0) d b
  | .shl, [d, b] => asmShift .shlImm .shlReg d b
  | .shr, [d, b] => asmShift .shrImm .shrReg d b
  | .sar, [d, b] => asmShift .sarImm .sarReg d b
  | .ror, [d, b] => asmShift .rorImm .rorReg d b
  | .ld, [d, a] => asmMem .ld d a
  | .st, [r, a] => asmMem .st r a
  | .push, [x] =>
    if isImm x then (readImm .val9 9 x).map fun v => .pushImm v 1
    else (readReg x).map fun r => .pushReg (r.bits.setWidth 9) 0
  | .pop, [x] => (readReg x).map fun r => .pop (r.bits.setWidth 9) 0
  | .cmp, [a, b] => do return .cmp (← readReg a) (← readReg b) 0
  | .br, [cc, l] => do return .br (← readCond cc) (← readLabel .off9 9 labels current l)
  | .call, [l] => (readLabel .off11 11 labels current l).map .call
  | .ret, [] => .ok (.ret 0)
  | .hlt, _ | .add, _ | .sub, _ | .mul, _ | .div, _ | .and, _ | .or, _ | .xor, _ | .mov, _ | .shl, _ | .shr, _ | .sar, _
  | .ror, _ | .ld, _ | .st, _ | .push, _ | .pop, _ | .cmp, _ | .br, _ | .call, _ | .ret, _ =>
    .error (.badOperands, List.intercalate [','] ops)

/-- The mnemonic of an instruction line as written: everything before the first white space (R66). -/
def mnemonicText (t : Text) : Text := t.takeWhile fun c => !isBlank c

/-- One instruction line: the mnemonic, white space, the operands (R66). -/
def asmText (labels : LabelTable) (current : Nat) (t : Text) : Except AsmFault Instr :=
  match mnemonicNames.lookup (lower (mnemonicText t)) with
  | some m => asmInstr labels current m (splitTokens (t.dropWhile fun c => !isBlank c))
  | none => .error (.unknownMnemonic, mnemonicText t)

/-! ### The two passes (R65, R70) -/

/-- A line of source: its number, the label it defines, and its instruction, either of which may be missing. -/
structure SourceLine where
  number : Nat
  label : Option Text
  instr : Text
  deriving DecidableEq, Repr

/-- A line without its comment and outer white space, taken apart at its first `:` (R65). -/
def readLine (number : Nat) (raw : Text) : Except AsmError SourceLine :=
  let t := trim (stripComment raw)
  if t.contains ':' then
    let name := t.takeWhile (· != ':')
    if name.isEmpty || name.any isBlank then .error ⟨.badLabel, none, name, number⟩
    else .ok ⟨number, some name, trim ((t.dropWhile (· != ':')).drop 1)⟩
  else .ok ⟨number, none, t⟩

/-- The lines from number `number` on. -/
def readLines : Nat → List Text → Except AsmError (List SourceLine)
  | _, [] => .ok []
  | number, raw :: rest => do return (← readLine number raw) :: (← readLines (number + 1) rest)

/-- Pass 1: a label stands for the index of the next instruction; only instruction lines advance the index. -/
def collectLabels : Nat → LabelTable → List SourceLine → Except AsmError LabelTable
  | _, labels, [] => .ok labels
  | index, labels, l :: rest =>
    let next := if l.instr.isEmpty then index else index + 1
    match l.label with
    | none => collectLabels next labels rest
    | some name =>
      if (labels.lookup name).isSome then .error ⟨.duplicateLabel, none, name, l.number⟩
      else collectLabels next ((name, index) :: labels) rest

/-- Pass 2: one instruction for each instruction line, in order. -/
def asmLines (labels : LabelTable) : Nat → List SourceLine → Except AsmError (List Instr)
  | _, [] => .ok []
  | index, l :: rest =>
    if l.instr.isEmpty then asmLines labels index rest
    else
      match asmText labels index l.instr with
      | .error (kind, token) => .error ⟨kind, some (mnemonicText l.instr), token, l.number⟩
      | .ok i => (asmLines labels (index + 1) rest).map (i :: ·)

/-- The instructions of a source text. -/
def assembleInstrs (source : Text) : Except AsmError (List Instr) := do
  let ls ← readLines 1 (splitLines source)
  asmLines (← collectLabels 0 [] ls) 0 ls

/-- The assembler: the words of a source text, index-aligned with instruction addresses, or one diagnostic (R70). -/
def assemble (source : Text) : Except AsmError (List Word) := (assembleInstrs source).map (·.map encode)

end Sys2Proof.Machine
end

