-- ==== Sys2Proof/Machine/HostInterface.lean ====
section
/-! DEFINITION. What the host does between steps besides reset and step (70_reset_and_hazards.md R141, R142, R144):
load a program, read a program file, look at the video window. The contract (load once, after reset and before the
first step) is the host's to keep (R144; log 12). -/

namespace Sys2Proof.Machine

/-- Why a program is not loaded. -/
inductive LoadError where
  /-- More than 65536 words (R141). Safe: nothing is loaded. -/
  | programTooLong
  /-- A program file with an odd number of bytes (R142). Safe: nothing is loaded. -/
  | oddByteCount
  deriving DecidableEq, Repr

/-- FILE_BYTE_ORDER (R6, R142): which byte of a word comes first in a program file, a parameter of the loader. -/
inductive ByteOrder where
  | little | big
  deriving DecidableEq, Repr

/-- Write words at consecutive addresses from `a`. -/
def placeWords (m : Memory) (a : Nat) : List Word → Memory
  | [] => m
  | w :: ws => placeWords (m.write a w) (a + 1) ws

/-- Load a program (R141): word `i` goes to address `i`; registers, pc, flags and `running` do not change. -/
def load (program : List Word) (s : State) : Except LoadError State :=
  if Config.memWords < program.length then .error .programTooLong
  else .ok { s with mem := placeWords s.mem Config.loadBase program }

/-- The start of a run (R143, R145): reset, then load. -/
def boot (program : List Word) : Except LoadError State := load program State.reset

/-- One word of a program file (R142). -/
def wordOfBytes (order : ByteOrder) (first second : Byte) : Word :=
  match order with
  | .little => second ++ first
  | .big => first ++ second

/-- The words of a program file: word `i` at byte offset `2i`, no header, no length (R142). -/
def fileWords (order : ByteOrder) : List Byte → Except LoadError (List Word)
  | [] => .ok []
  | [_] => .error .oddByteCount
  | b0 :: b1 :: rest => (fileWords order rest).map (wordOfBytes order b0 b1 :: ·)

/-- The bytes of a program file (R142). -/
def fileBytes (order : ByteOrder) : List Word → List Byte
  | [] => []
  | w :: ws =>
    match order with
    | .little => w.extractLsb' 0 8 :: w.extractLsb' 8 8 :: fileBytes order ws
    | .big => w.extractLsb' 8 8 :: w.extractLsb' 0 8 :: fileBytes order ws

/-- Word `k` of the video window, as a display reads it between steps (R39, R44). -/
def videoWord (s : State) (k : Fin Config.vramWords) : Word := s.mem.read (Config.vramBase.toNat + k.val)

end Sys2Proof.Machine
end

