-- ==== Sys2Proof/Safety.lean ====
section
/-! DEFINITION. The terms statements are made in: the end of a run, what one instruction may change, and the states
the engine keeps to. -/

namespace Sys2Proof.Machine

/-! ### The end of a run (R145) -/

/-- The machine is Halted (R16). -/
def State.halted (s : State) : Prop := s.running = false

/-- The run ended by HLT: Halted with no fault recorded (R132, R145). -/
def State.endedCleanly (s : State) : Prop := s.running = false ∧ s.fault = none

/-- The run ended by a fault (R145). -/
def State.endedByFault (s : State) : Prop := s.running = false ∧ s.fault ≠ none

/-! ### Frames -/

/-- Every register but those in `rs` holds the same value. -/
def sameRegsExcept (rs : List Reg) (s t : State) : Prop := ∀ r, r ∉ rs → t.reg r = s.reg r

/-- Every word of memory but those at the addresses in `as` holds the same value. -/
def sameMemExcept (as : List Word) (s t : State) : Prop := ∀ a, a ∉ as → t.readMem a = s.readMem a

/-- The flags, `running` and the fault record are the same: everything outside registers, memory and pc. -/
def sameStatus (s t : State) : Prop := t.flags = s.flags ∧ t.running = s.running ∧ t.fault = s.fault

/-- `t` is `s` with the value `v` in the register `rd`, and nothing else different. -/
def onlyReg (rd : Reg) (v : Word) (s t : State) : Prop :=
  t.reg rd = v ∧ sameRegsExcept [rd] s t ∧ sameMemExcept [] s t ∧ sameStatus s t ∧ t.pc = s.pc

/-- The outcome `o` of an instruction executed in `s` is a next state in which `rd` holds a value with the property
`P`, and nothing else is different. -/
def onlyRegSuch (rd : Reg) (P : Word → Prop) (s : State) (o : Host.Outcome State Fault Refusal) : Prop :=
  ∃ t, o = .next t ∧ P (t.reg rd) ∧ onlyReg rd (t.reg rd) s t

/-- `t` is what a Push of `v` leaves besides the pc: `v` stored where SP pointed, SP one lower, nothing else
different (R37). -/
def pushed (v : Word) (s t : State) : Prop :=
  t.readMem (s.reg .r0) = v ∧ (t.reg .r0).toNat + 1 = (s.reg .r0).toNat ∧
  sameRegsExcept [.r0] s t ∧ sameMemExcept [s.reg .r0] s t ∧ sameStatus s t

/-- `t` is what raising `cause` with `info` in `s` leaves, for an instruction whose word is `w`: Halted, the record
written, and nothing else different (R120). The address recorded is the one before the post-fetch pc. -/
def trapped (cause : FaultCause) (info w : Word) (s t : State) : Prop :=
  t.running = false ∧
  (∃ r, t.fault = some r ∧ r.cause = cause ∧ r.info = info ∧ r.word = w ∧ r.addr + 1 = s.pc) ∧
  sameRegsExcept [] s t ∧ sameMemExcept [] s t ∧ t.flags = s.flags ∧ t.pc = s.pc

/-- The outcome `o` is the next state that raising `cause` with `info` leaves. -/
def trapsWith (cause : FaultCause) (info w : Word) (s : State) (o : Host.Outcome State Fault Refusal) : Prop :=
  ∃ t, o = .next t ∧ trapped cause info w s t

/-- The two states agree on everything but the word in the fault record. -/
def sameButFaultWord (s t : State) : Prop :=
  s.regs = t.regs ∧ s.pc = t.pc ∧ s.flags = t.flags ∧ s.running = t.running ∧ s.mem = t.mem ∧
  s.fault.map (fun r => (r.cause, r.addr, r.info)) = t.fault.map (fun r => (r.cause, r.addr, r.info))

end Sys2Proof.Machine

namespace Sys2Proof

open Machine

/-! ### What an instruction may write (R23) -/

/-- The registers an instruction may write: its destination, and SP for the stack instructions; none when a wide
index names no register (R100). -/
def Instr.writes : Instr → List Reg
  | .hlt _ => []
  | .addReg rd _ _ | .subReg rd _ _ | .mulReg rd _ _ | .divReg rd _ _
  | .andReg rd _ _ | .orReg rd _ _ | .xorReg rd _ _ | .movReg rd _ _ => [rd]
  | .addImm rd _ | .subImm rd _ | .mulImm rd _ | .divImm rd _
  | .andImm rd _ | .orImm rd _ | .xorImm rd _ | .movImm rd _ => [rd]
  | .shlReg rd _ | .shrReg rd _ | .sarReg rd _ | .rorReg rd _ => [rd]
  | .shlImm rd _ | .shrImm rd _ | .sarImm rd _ | .rorImm rd _ => [rd]
  | .ld rd _ _ => [rd]
  | .st _ _ _ => []
  | .pushReg _ _ | .pushImm _ _ => [.r0]
  | .pop idx _ => if idx.toNat ≤ 7 then [.r0, Reg.ofBits (idx.setWidth 3)] else []
  | .stackReserved _ => []
  | .cmp _ _ _ => []
  | .br _ _ => []
  | .call _ => [.r0]
  | .ret _ => [.r0]

/-- The addresses an instruction may store to: the effective address for ST, SP for PUSH and CALL, none for any
other (R34). -/
def Instr.stores (s : State) : Instr → List Word
  | .st _ rb off => [effectiveAddress s rb off]
  | .pushReg _ _ | .pushImm _ _ | .call _ => [s.sp]
  | .hlt _
  | .addReg _ _ _ | .subReg _ _ _ | .mulReg _ _ _ | .divReg _ _ _
  | .andReg _ _ _ | .orReg _ _ _ | .xorReg _ _ _ | .movReg _ _ _
  | .addImm _ _ | .subImm _ _ | .mulImm _ _ | .divImm _ _
  | .andImm _ _ | .orImm _ _ | .xorImm _ _ | .movImm _ _
  | .shlReg _ _ | .shrReg _ _ | .sarReg _ _ | .rorReg _ _
  | .shlImm _ _ | .shrImm _ _ | .sarImm _ _ | .rorImm _ _
  | .ld _ _ _ | .pop _ _ | .stackReserved _ | .cmp _ _ _ | .br _ _ | .ret _ => []

/-- The instruction is a CMP, the only one that writes a flag (R15). -/
def Instr.isCmp (i : Instr) : Prop := ∃ ra rb ign, i = .cmp ra rb ign

/-- The instruction is a BR, the only one that reads a flag (R15). -/
def Instr.isBr (i : Instr) : Prop := ∃ c off, i = .br c off

end Sys2Proof

namespace Sys2Proof.Machine

/-- The table of R121, with the priority of R128: instruction `i`, executed in `s`, raises the cause with this
information. -/
def faultCondition (i : Instr) (s : State) (cause : FaultCause) (info : Word) : Prop :=
  match cause with
  | .unknownOpcode => info = 0xC ∧ ∃ ign, i = .stackReserved ign
  | .protectedAccess =>
    0x0100 ≤ info.toNat ∧ info.toNat ≤ 0x7FFF ∧
      ∃ r rb off, (i = .ld r rb off ∨ i = .st r rb off) ∧ info = effectiveAddress s rb off
  | .stackOverflow =>
    info = s.reg .r0 ∧ info.toNat < 0xF000 ∧
      ((∃ idx ign, i = .pushReg idx ign ∧ idx.toNat ≤ 7) ∨ (∃ val ign, i = .pushImm val ign) ∨ ∃ off, i = .call off)
  | .stackUnderflow =>
    info = s.reg .r0 ∧ info = 0xFFFF ∧ ((∃ idx ign, i = .pop idx ign ∧ idx.toNat ≤ 7) ∨ ∃ ign, i = .ret ign)
  | .divideByZero =>
    info = 0 ∧ ((∃ rd rs ign, i = .divReg rd rs ign ∧ s.reg rs = 0) ∨ ∃ rd, i = .divImm rd 0)
  | .registerIndexOutOfRange =>
    (∃ rd idx, (i = .shlReg rd idx ∨ i = .shrReg rd idx ∨ i = .sarReg rd idx ∨ i = .rorReg rd idx) ∧
      7 < idx.toNat ∧ info.toNat = idx.toNat) ∨
    ∃ idx ign, (i = .pushReg idx ign ∨ i = .pop idx ign) ∧ 7 < idx.toNat ∧ info.toNat = idx.toNat

/-! ### States the engine keeps to -/

/-- A fault record is one that R121 allows: the information each cause records, and an instruction of the cause's own
opcodes. -/
def FaultRecord.consistent (r : FaultRecord) : Prop :=
  match r.cause with
  | .unknownOpcode => r.info = 0xC ∧ opcodeField r.word = 0xC ∧ stackModeField r.word = 3
  | .protectedAccess =>
    0x0100 ≤ r.info.toNat ∧ r.info.toNat ≤ 0x7FFF ∧ (opcodeField r.word = 0xA ∨ opcodeField r.word = 0xB)
  | .stackOverflow => r.info.toNat < 0xF000 ∧ (opcodeField r.word = 0xC ∨ opcodeField r.word = 0xF)
  | .stackUnderflow => r.info = 0xFFFF ∧ (opcodeField r.word = 0xC ∨ opcodeField r.word = 0xF)
  | .divideByZero => r.info = 0 ∧ opcodeField r.word = 0x4
  | .registerIndexOutOfRange => 7 < r.info.toNat ∧ (opcodeField r.word = 0x8 ∨ opcodeField r.word = 0xC)

/-- The flags are ones that reset or some CMP leaves (R105, R106, R108): `Z` excludes the other three, and with
`V` set, `N` and `C` agree. -/
def Flags.reachable (f : Flags) : Prop := (f.z = true → f.n = false ∧ f.c = false ∧ f.v = false) ∧ (f.v = true → f.n = f.c)

/-- What every step keeps: memory in canonical form; flags as a CMP or reset leaves them; a recorded fault only in
Halted, consistent, and of the instruction just before the pc. -/
def State.Inv (s : State) : Prop :=
  s.mem.wf = true ∧ s.flags.reachable ∧
  ∀ r, s.fault = some r → s.running = false ∧ r.consistent ∧ r.addr + 1 = s.pc

end Sys2Proof.Machine
end

