-- ==== Sys2Proof/Certificates/Slice0/Obligations.lean ====
section
/-! DEFINITION. The statements for the provers. Rules are of spec/; "Dn" is a decision of 92_eei_decisions.md, the
spec's own choice where its source is silent; "log n" is notes/assumptions/n.md. -/

open Sys2Proof Sys2Proof.Machine

/-! ### What each instruction does: every constructor of Instr completes -/

/-- R80: HLT clears `running` and changes nothing else, the fault record included; a step in Running at a word with
0x0 in bits 15 to 12, whatever the other bits, does that and leaves the pc one further. -/
def Obligations.HaltStopsAndChangesNothingElse : Prop :=
  ∀ (s : State) (ign : BitVec 12),
    (∃ t, exec (.hlt ign) s = .next t ∧ t.running = false ∧ t.fault = s.fault ∧ t.flags = s.flags ∧ t.pc = s.pc ∧
      sameRegsExcept [] s t ∧ sameMemExcept [] s t) ∧
    encode (.hlt 0) = 0x0000 ∧
    (s.running = true → (s.readMem s.pc).extractLsb' 12 4 = 0x0 →
      ∃ t, step s = .next t ∧ t.running = false ∧ t.fault = s.fault ∧ t.flags = s.flags ∧ t.pc = s.pc + 1 ∧
        sameRegsExcept [] s t ∧ sameMemExcept [] s t)

/-- AND, OR and XOR, opcodes 0x5 to 0x7 of format A, work bit by bit on Rd and the second operand and write Rd alone,
in both forms; the high byte of an immediate operand is zero (41_alu.md; the layout of format A is the spec's decision
D1 and the zero extension its D6, log 6). -/
def Obligations.BitwiseLogicWritesRdBitByBit : Prop :=
  (∀ w : Word,
    (w.extractLsb' 12 4 = 0x5 → decode w =
      if w.getLsbD 0 then .andImm (rdField w) (imm8Field w) else .andReg (rdField w) (rsField w) (aluIgnored w)) ∧
    (w.extractLsb' 12 4 = 0x6 → decode w =
      if w.getLsbD 0 then .orImm (rdField w) (imm8Field w) else .orReg (rdField w) (rsField w) (aluIgnored w)) ∧
    (w.extractLsb' 12 4 = 0x7 → decode w =
      if w.getLsbD 0 then .xorImm (rdField w) (imm8Field w) else .xorReg (rdField w) (rsField w) (aluIgnored w))) ∧
  ∀ (s : State) (rd rs : Reg) (ign : BitVec 5) (imm : BitVec 8),
    onlyRegSuch rd (fun v => ∀ k, v.getLsbD k = ((s.reg rd).getLsbD k && (s.reg rs).getLsbD k)) s
      (exec (.andReg rd rs ign) s) ∧
    onlyRegSuch rd (fun v => ∀ k, v.getLsbD k = ((s.reg rd).getLsbD k && imm.getLsbD k)) s
      (exec (.andImm rd imm) s) ∧
    onlyRegSuch rd (fun v => ∀ k, v.getLsbD k = ((s.reg rd).getLsbD k || (s.reg rs).getLsbD k)) s
      (exec (.orReg rd rs ign) s) ∧
    onlyRegSuch rd (fun v => ∀ k, v.getLsbD k = ((s.reg rd).getLsbD k || imm.getLsbD k)) s
      (exec (.orImm rd imm) s) ∧
    onlyRegSuch rd (fun v => ∀ k, v.getLsbD k = ((s.reg rd).getLsbD k ^^ (s.reg rs).getLsbD k)) s
      (exec (.xorReg rd rs ign) s) ∧
    onlyRegSuch rd (fun v => ∀ k, v.getLsbD k = ((s.reg rd).getLsbD k ^^ imm.getLsbD k)) s
      (exec (.xorImm rd imm) s)

/-- ADD, SUB and MUL write Rd with the exact result reduced mod 65536 and nothing else. The reduction is the spec's
decision D10 (41_alu.md R89), the zero extension of the immediate its D6 (log 7). -/
def Obligations.ArithmeticWrapsAndWritesRdOnly : Prop :=
  ∀ (s : State) (rd rs : Reg) (ign : BitVec 5) (imm : BitVec 8),
    onlyRegSuch rd (fun v => v.toNat = ((s.reg rd).toNat + (s.reg rs).toNat) % 65536) s (exec (.addReg rd rs ign) s) ∧
    onlyRegSuch rd (fun v => v.toNat = ((s.reg rd).toNat + imm.toNat) % 65536) s (exec (.addImm rd imm) s) ∧
    onlyRegSuch rd (fun v => (v.toNat : Int) = ((s.reg rd).toNat - (s.reg rs).toNat : Int) % 65536) s
      (exec (.subReg rd rs ign) s) ∧
    onlyRegSuch rd (fun v => (v.toNat : Int) = ((s.reg rd).toNat - imm.toNat : Int) % 65536) s (exec (.subImm rd imm) s) ∧
    onlyRegSuch rd (fun v => v.toNat = (s.reg rd).toNat * (s.reg rs).toNat % 65536) s (exec (.mulReg rd rs ign) s) ∧
    onlyRegSuch rd (fun v => v.toNat = (s.reg rd).toNat * imm.toNat % 65536) s (exec (.mulImm rd imm) s)

/-- MOV replaces all of Rd with the second operand and changes nothing else; the immediate is zero-extended, the
spec's decision D6 (log 7). -/
def Obligations.MoveReplacesRdWithOperand : Prop :=
  ∀ (s : State) (rd rs : Reg) (ign : BitVec 5) (imm : BitVec 8),
    onlyRegSuch rd (fun v => v = s.reg rs) s (exec (.movReg rd rs ign) s) ∧
    onlyRegSuch rd (fun v => v.toNat = imm.toNat) s (exec (.movImm rd imm) s)

/-- DIV, both forms: the unsigned quotient, truncated (decision D11); a zero divisor raises DivideByZero and leaves
Rd (decision D12). Log 7. -/
def Obligations.DivideIsUnsignedAndFaultsOnZero : Prop :=
  ∀ (s : State) (rd rs : Reg) (ign : BitVec 5) (imm : BitVec 8),
    (if s.reg rs = 0 then trapsWith .divideByZero 0 (encode (.divReg rd rs ign)) s (exec (.divReg rd rs ign) s)
     else onlyRegSuch rd (fun v => v.toNat = (s.reg rd).toNat / (s.reg rs).toNat) s (exec (.divReg rd rs ign) s)) ∧
    (if imm = 0 then trapsWith .divideByZero 0 (encode (.divImm rd imm)) s (exec (.divImm rd imm) s)
     else onlyRegSuch rd (fun v => v.toNat = (s.reg rd).toNat / imm.toNat) s (exec (.divImm rd imm) s))

/-- SHL, SHR, SAR and ROR by an immediate amount 0 to 63, by the arithmetic meaning of the operation, which decision
D13 takes for amounts of 16 and more (log 7). -/
def Obligations.ShiftsByImmediateAmount : Prop :=
  ∀ (s : State) (rd : Reg) (amt : BitVec 6),
    onlyRegSuch rd (fun v => v.toNat = (s.reg rd).toNat * 2 ^ amt.toNat % 65536) s (exec (.shlImm rd amt) s) ∧
    onlyRegSuch rd (fun v => v.toNat = (s.reg rd).toNat / 2 ^ amt.toNat) s (exec (.shrImm rd amt) s) ∧
    onlyRegSuch rd (fun v => v.toInt = (s.reg rd).toInt / 2 ^ amt.toNat) s (exec (.sarImm rd amt) s) ∧
    onlyRegSuch rd (fun v => ∀ k, k < 16 → v.getLsbD k = (s.reg rd).getLsbD ((k + amt.toNat) % 16)) s
      (exec (.rorImm rd amt) s)

/-- The same four by a register: the amount is the whole 16-bit value of the register the 6-bit field names (decision
D13); a field above 7 names none and raises RegisterIndexOutOfRange (decision D14). Log 7, log 6. -/
def Obligations.ShiftsByRegisterAmountOrFault : Prop :=
  ∀ (s : State) (rd : Reg) (idx : BitVec 6),
    if idx.toNat ≤ 7 then
      ∀ n, n = (s.reg (Reg.ofBits (idx.setWidth 3))).toNat →
        onlyRegSuch rd (fun v => v.toNat = (s.reg rd).toNat * 2 ^ n % 65536) s (exec (.shlReg rd idx) s) ∧
        onlyRegSuch rd (fun v => v.toNat = (s.reg rd).toNat / 2 ^ n) s (exec (.shrReg rd idx) s) ∧
        onlyRegSuch rd (fun v => v.toInt = (s.reg rd).toInt / 2 ^ n) s (exec (.sarReg rd idx) s) ∧
        onlyRegSuch rd (fun v => ∀ k, k < 16 → v.getLsbD k = (s.reg rd).getLsbD ((k + n) % 16)) s
          (exec (.rorReg rd idx) s)
    else
      ∀ i, i = Instr.shlReg rd idx ∨ i = .shrReg rd idx ∨ i = .sarReg rd idx ∨ i = .rorReg rd idx →
        trapsWith .registerIndexOutOfRange (idx.setWidth 16) (encode i) s (exec i s)

/-- LD writes Rd with the word at the effective address, or, when that is protected, faults and leaves Rd
(44_load_store.md, its two instructions; what a fault records and leaves is decisions D20 and D21, log 9). -/
def Obligations.LoadReadsUnlessProtected : Prop :=
  ∀ (s : State) (rd rb : Reg) (off : BitVec 6) (ea : Word), ea = effectiveAddress s rb off →
    if 0x0100 ≤ ea.toNat ∧ ea.toNat ≤ 0x7FFF then
      trapsWith .protectedAccess ea (encode (.ld rd rb off)) s (exec (.ld rd rb off) s)
    else onlyRegSuch rd (fun v => v = s.readMem ea) s (exec (.ld rd rb off) s)

/-- ST stores the register at the effective address and changes nothing else, or, when that is protected, faults and
leaves memory (44_load_store.md, its two instructions; decisions D20 and D21, log 9). -/
def Obligations.StoreWritesUnlessProtected : Prop :=
  ∀ (s : State) (rs rb : Reg) (off : BitVec 6) (ea : Word), ea = effectiveAddress s rb off →
    if 0x0100 ≤ ea.toNat ∧ ea.toNat ≤ 0x7FFF then
      trapsWith .protectedAccess ea (encode (.st rs rb off)) s (exec (.st rs rb off) s)
    else ∃ t, exec (.st rs rb off) s = .next t ∧ t.readMem ea = s.reg rs ∧ sameMemExcept [ea] s t ∧
      sameRegsExcept [] s t ∧ sameStatus s t ∧ t.pc = s.pc

/-- PUSH, both forms, with SP inside the stack range: the value is stored where SP points and SP goes down by one
(decision D15, log 8); the register is read before SP moves (D24) and the immediate is zero-extended (D7). -/
def Obligations.PushStoresThenDecrements : Prop :=
  ∀ s : State, 0xF000 ≤ (s.reg .r0).toNat →
    (∀ (idx : BitVec 9) (ign : BitVec 1), idx.toNat ≤ 7 →
      ∃ t, exec (.pushReg idx ign) s = .next t ∧ pushed (s.reg (Reg.ofBits (idx.setWidth 3))) s t ∧ t.pc = s.pc) ∧
    ∀ (val : BitVec 9) (ign : BitVec 1),
      ∃ t v, exec (.pushImm val ign) s = .next t ∧ v.toNat = val.toNat ∧ pushed v s t ∧ t.pc = s.pc

/-- PUSH, both forms, and CALL with SP below the stack range raise StackOverflow and write nothing, SP included
(decision D16, log 8; no partial effect, D20, log 9). -/
def Obligations.PushBelowStackRangeOverflows : Prop :=
  ∀ s : State, (s.reg .r0).toNat < 0xF000 →
    (∀ (idx : BitVec 9) (ign : BitVec 1), idx.toNat ≤ 7 →
      trapsWith .stackOverflow (s.reg .r0) (encode (.pushReg idx ign)) s (exec (.pushReg idx ign) s)) ∧
    (∀ (val : BitVec 9) (ign : BitVec 1),
      trapsWith .stackOverflow (s.reg .r0) (encode (.pushImm val ign)) s (exec (.pushImm val ign) s)) ∧
    ∀ off : BitVec 11, trapsWith .stackOverflow (s.reg .r0) (encode (.call off)) s (exec (.call off) s)

/-- POP with a stack that is not empty: SP goes up by one, the word there is written to the destination last, so that
POP r0 leaves the word and not the pointer (decisions D15, D24, log 8); memory is unchanged. -/
def Obligations.PopIncrementsThenLoads : Prop :=
  ∀ (s : State) (idx : BitVec 9) (ign : BitVec 1) (rd : Reg), s.reg .r0 ≠ 0xFFFF → idx.toNat ≤ 7 →
    rd = Reg.ofBits (idx.setWidth 3) →
    ∃ t, exec (.pop idx ign) s = .next t ∧ t.reg rd = s.readMem (s.reg .r0 + 1) ∧
      (rd ≠ .r0 → t.reg .r0 = s.reg .r0 + 1) ∧ sameRegsExcept [.r0, rd] s t ∧ sameMemExcept [] s t ∧
      sameStatus s t ∧ t.pc = s.pc

/-- POP and RET on the empty stack raise StackUnderflow and change no register and no pc (decision D16, log 8). -/
def Obligations.PopOfEmptyStackUnderflows : Prop :=
  ∀ s : State, s.reg .r0 = 0xFFFF →
    (∀ (idx : BitVec 9) (ign : BitVec 1), idx.toNat ≤ 7 →
      trapsWith .stackUnderflow 0xFFFF (encode (.pop idx ign)) s (exec (.pop idx ign) s)) ∧
    ∀ ign : BitVec 11, trapsWith .stackUnderflow 0xFFFF (encode (.ret ign)) s (exec (.ret ign) s)

/-- PUSH register and POP with an index above 7 raise RegisterIndexOutOfRange whatever SP holds: the decode check
comes before the stack check (decisions D14, D23, log 9). -/
def Obligations.StackIndexFaultComesFirst : Prop :=
  ∀ (s : State) (idx : BitVec 9) (ign : BitVec 1) (i : Instr), 7 < idx.toNat →
    i = .pushReg idx ign ∨ i = .pop idx ign →
    trapsWith .registerIndexOutOfRange (idx.setWidth 16) (encode i) s (exec i s)

/-- STACK with Mode 3 raises UnknownOpcode with the opcode as information, in every state (decision D4, log 6). -/
def Obligations.ReservedStackModeIsUnknownOpcode : Prop :=
  ∀ (s : State) (ign : BitVec 10),
    trapsWith .unknownOpcode 0xC (encode (.stackReserved ign)) s (exec (.stackReserved ign) s)

/-- CMP writes the four flags and nothing else: Z on equality, N the sign of the wrapped difference, C the unsigned
borrow, V exactly when the true signed difference does not fit 16 bits (decision D33; the position of Rb is D9).
Log 7, log 6. -/
def Obligations.CompareWritesTheFourFlags : Prop :=
  ∀ (s : State) (ra rb : Reg) (ign : BitVec 6), ∃ t, exec (.cmp ra rb ign) s = .next t ∧
    (t.flags.z = true ↔ s.reg ra = s.reg rb) ∧
    (t.flags.n = true ↔ 32768 ≤ ((s.reg ra).toNat - (s.reg rb).toNat : Int) % 65536) ∧
    (t.flags.c = true ↔ (s.reg ra).toNat < (s.reg rb).toNat) ∧
    (t.flags.v = true ↔
      (s.reg ra).toInt - (s.reg rb).toInt < -32768 ∨ 32767 < (s.reg ra).toInt - (s.reg rb).toInt) ∧
    sameRegsExcept [] s t ∧ sameMemExcept [] s t ∧ t.pc = s.pc ∧ t.running = s.running ∧ t.fault = s.fault

/-- R109: BR (opcode 0xE, condition in bits 11 to 9, offset in bits 8 to 0) adds its signed offset to the post-fetch
pc, mod 65536, when its condition holds of Z and N, and changes nothing otherwise; condition 7 holds never. -/
def Obligations.BranchMovesPcExactlyWhenConditionHolds : Prop :=
  (∀ w : Word, w.extractLsb' 12 4 = 0xE →
    decode w = .br (Cond.ofBits (w.extractLsb' 9 3)) (w.extractLsb' 0 9)) ∧
  ∀ (s : State) (c : Cond) (off : BitVec 9), ∃ t, exec (.br c off) s = .next t ∧
    (if c = .eq ∧ s.flags.z = true ∨ c = .ne ∧ s.flags.z = false ∨
        c = .gt ∧ s.flags.n = false ∧ s.flags.z = false ∨ c = .lt ∧ s.flags.n = true ∨
        c = .ge ∧ (s.flags.n = false ∨ s.flags.z = true) ∨ c = .le ∧ (s.flags.n = true ∨ s.flags.z = true) ∨ c = .al
      then (t.pc.toNat : Int) = (s.pc.toNat + off.toInt) % 65536
      else t.pc = s.pc) ∧
    sameRegsExcept [] s t ∧ sameMemExcept [] s t ∧ sameStatus s t

/-- CALL with SP inside the stack range pushes the post-fetch pc and adds its signed offset to it, mod 65536
(decisions D8, D15, D19; log 6, log 8, log 9). -/
def Obligations.CallPushesReturnAddressAndJumps : Prop :=
  ∀ (s : State) (off : BitVec 11), 0xF000 ≤ (s.reg .r0).toNat →
    ∃ t, exec (.call off) s = .next t ∧ pushed s.pc s t ∧ (t.pc.toNat : Int) = (s.pc.toNat + off.toInt) % 65536

/-- RET with a stack that is not empty sets the pc to the word above SP and raises SP by one (decisions D8, D15;
log 6, log 8). -/
def Obligations.ReturnPopsThePc : Prop :=
  ∀ (s : State) (ign : BitVec 11), s.reg .r0 ≠ 0xFFFF →
    ∃ t, exec (.ret ign) s = .next t ∧ t.pc = s.readMem (s.reg .r0 + 1) ∧ t.reg .r0 = s.reg .r0 + 1 ∧
      sameRegsExcept [.r0] s t ∧ sameMemExcept [] s t ∧ sameStatus s t

/-- The effective address of LD and ST is the base register plus the signed 6-bit offset, reduced mod 65536 (the wrap
is decision D19, log 9). -/
def Obligations.EffectiveAddressAddsSignedOffset : Prop :=
  ∀ (s : State) (rb : Reg) (off : BitVec 6),
    ((effectiveAddress s rb off).toNat : Int) = ((s.reg rb).toNat + off.toInt) % 65536 ∧ -32 ≤ off.toInt ∧ off.toInt ≤ 31

/-- The immediate operands of the ALU, of MOV and of PUSH are zero-extended (decisions D6, D7, log 6). -/
def Obligations.ImmediateOperandsAreZeroExtended : Prop :=
  (∀ imm : BitVec 8, (immOperand imm).toNat = imm.toNat) ∧ ∀ val : BitVec 9, (val9Operand val).toNat = val.toNat

/-! ### Faults -/

/-- A fault is precise: the state after it is the state before with the pc advanced, `running` cleared and the record
(cause, address, fetched word, information) written, and nothing else different (decision D20, log 9). -/
def Obligations.FaultsArePrecise : Prop :=
  ∀ s t : State, step s = .next t → t.fault ≠ s.fault →
    s.running = true ∧ t.running = false ∧
    (∃ cause info, t.fault = some ⟨cause, s.pc, s.readMem s.pc, info⟩) ∧
    t.pc = s.pc + 1 ∧ t.regs = s.regs ∧ t.flags = s.flags ∧ t.mem = s.mem

/-- The causes, their conditions and the information they record are those of the table of 60_exceptions.md section
2, and no other condition faults (the numbering and the record are decision D21, the priority D23; log 9). -/
def Obligations.FaultConditionsAreExactlyTheTable : Prop :=
  ∀ (i : Instr) (s t : State), exec i s = .next t → s.fault = none →
    ∀ cause info, (∃ r, t.fault = some r ∧ r.cause = cause ∧ r.info = info) ↔ faultCondition i s cause info

/-- An instruction that the assembler emits never raises UnknownOpcode or RegisterIndexOutOfRange (42_shift.md R90 and
45_stack.md R100 say so of the words their checks reject; the checks are decisions D4 and D14, log 6). -/
def Obligations.ConformingInstructionsPassDecodeChecks : Prop :=
  ∀ (i : Instr) (s t : State) (r : FaultRecord), i.wellFormed = true → s.fault = none → exec i s = .next t →
    t.fault = some r → r.cause ≠ .unknownOpcode ∧ r.cause ≠ .registerIndexOutOfRange

/-! ### Whole-machine rules -/

/-- R22: the step is total. Every instruction in every state, and every step, ends in a next state. -/
def Obligations.EveryStepHasANextState : Prop :=
  (∀ (i : Instr) (s : State), ∃ t, exec i s = .next t) ∧ ∀ s : State, ∃ t, step s = .next t

/-- R15: only CMP writes the flags, faults included, and only BR reads them, and of them only Z and N. -/
def Obligations.FlagsWrittenByCompareReadByBranch : Prop :=
  (∀ (i : Instr) (s t : State), exec i s = .next t → ¬ i.isCmp → t.flags = s.flags) ∧
  (∀ (i : Instr) (s t u : State) (f : Flags), exec i s = .next t → exec i (s.setFlags f) = .next u → ¬ i.isBr →
    u.regs = t.regs ∧ u.pc = t.pc ∧ u.running = t.running ∧ u.fault = t.fault ∧ u.mem = t.mem ∧
      (i.isCmp → u.flags = t.flags)) ∧
  ∀ (i : Instr) (s t u : State) (c v : Bool), exec i s = .next t →
    exec i (s.setFlags ⟨s.flags.z, s.flags.n, c, v⟩) = .next u → i.isBr → u = t.setFlags ⟨s.flags.z, s.flags.n, c, v⟩

/-- The two states and their transitions (10_state.md section 5). Reset gives Running; a step in Halted stays
(decision D22, log 9); a step in Running, no fault being recorded, ends in Halted exactly when it executed HLT or
recorded a fault. -/
def Obligations.RunningAndHaltedTransitions : Prop :=
  State.reset.running = true ∧
  (∀ s t : State, step s = .next t → s.running = false → t = s) ∧
  ∀ s t : State, step s = .next t → s.running = true → s.fault = none →
    (t.running = false ↔ (∃ ign, decode (s.readMem s.pc) = .hlt ign) ∨ t.fault ≠ none)

/-- What an instruction may change: registers in its destination list (SP for the stack instructions), memory words at
the one address ST, PUSH and CALL store to, and the pc only in BR, CALL and RET (10_state.md section 7,
20_memory.md section 2). -/
def Obligations.InstructionFrames : Prop :=
  ∀ (i : Instr) (s t : State), exec i s = .next t →
    sameRegsExcept i.writes s t ∧ sameMemExcept (i.stores s) s t ∧
    (t.pc ≠ s.pc → (∃ c off, i = .br c off) ∨ (∃ off, i = .call off) ∨ ∃ ign, i = .ret ign)

/-- No run of any length, from any state, changes a word of the protected range 0x0100..0x7FFF (20_memory.md
sections 4 and 5; that a Push cannot land there rests on decisions D15 to D17, log 8). -/
def Obligations.ProtectedRangeNeverChanges : Prop :=
  ∀ (k : Nat) (s t : State), Sys2Proof.core.run k s = .next t →
    ∀ a : Word, 0x0100 ≤ a.toNat → a.toNat ≤ 0x7FFF → t.readMem a = s.readMem a

/-- A Halted machine stays as it is for any number of steps (decision D22, log 9). -/
def Obligations.HaltedForEver : Prop :=
  ∀ (k : Nat) (s : State), s.running = false → Sys2Proof.core.run k s = .next s

/-- A run executes one instruction a step: from a state in Running it goes on from the state that executing the
instruction at the pc leaves, with the pc advanced first, and from a state in Halted it stays; so it never stops short,
and steps taken in two batches give what the same steps give in one (10_state.md section 7, 70_reset_and_hazards.md
section 2; the wrap is decision D19, the no-op in Halted D22, log 9). -/
def Obligations.RunsExecuteOneInstructionAStep : Prop :=
  (∀ (k : Nat) (s : State), s.running = true →
    ∃ t, exec (decode (s.readMem s.pc)) (s.setPc (s.pc + 1)) = .next t ∧
      Sys2Proof.core.run (k + 1) s = Sys2Proof.core.run k t) ∧
  (∀ (k : Nat) (s : State), s.running = false → Sys2Proof.core.run (k + 1) s = .next s) ∧
  ∀ (m n : Nat) (s : State), ∃ t, Sys2Proof.core.run m s = .next t ∧
    Sys2Proof.core.run (m + n) s = Sys2Proof.core.run n t

/-- A step in Running executes the instruction its pc points at, in the state with the pc advanced by one and wrapped
at the top of memory (10_state.md section 7; the wrap is decision D19, log 9). -/
def Obligations.StepExecutesTheDecodedInstruction : Prop :=
  ∀ (s : State) (i : Instr), s.running = true → decode (s.readMem s.pc) = i →
    ∃ u : State, step s = exec i u ∧ u.pc.toNat = (s.pc.toNat + 1) % 65536 ∧ u.regs = s.regs ∧ u.flags = s.flags ∧
      u.running = true ∧ u.fault = s.fault ∧ u.mem = s.mem

/-- A word stored by ST at the next address is what the next step executes (20_memory.md section 8, 70 section 3:
derived by the spec from its fetch and protection rules). -/
def Obligations.StoreIsSeenByTheNextFetch : Prop :=
  ∀ (s : State) (rs rb : Reg) (off : BitVec 6), s.running = true → decode (s.readMem s.pc) = .st rs rb off →
    effectiveAddress s rb off = s.pc + 1 → isProtected (s.pc + 1) = false →
    ∃ t u : State, step s = .next t ∧ step t = exec (decode (s.reg rs)) u ∧ u.regs = s.regs ∧ u.pc = s.pc + 2 ∧
      u.flags = s.flags ∧ u.mem = t.mem ∧ u.readMem (s.pc + 1) = s.reg rs

/-! ### Invariants -/

/-- The invariant holds after reset. -/
def Obligations.InvariantHoldsAtReset : Prop := State.reset.Inv

/-- Every step keeps the invariant: memory in canonical form (the model's form, log 1); the flags ones that reset or a
CMP leaves; a recorded fault only in Halted, consistent with the table of causes, and of the instruction just before
the pc (decisions D20, D21, D33; log 7, log 9). -/
def Obligations.EveryStepKeepsTheInvariant : Prop :=
  ∀ s t : State, s.Inv → step s = .next t → t.Inv

/-- Memories in canonical form that read the same everywhere are equal (the model's form of memory, log 1). -/
def Obligations.CanonicalMemoryIsExtensional : Prop :=
  ∀ m m' : Memory, m.wf = true → m'.wf = true → (∀ a : Word, m.read a.toNat = m'.read a.toNat) → m = m'

/-! ### Reset, load, files -/

/-- R24: the value of every piece of state after reset. -/
def Obligations.ResetValues : Prop :=
  State.reset.reg .r0 = 0xFFFF ∧ (∀ r, r ≠ .r0 → State.reset.reg r = 0) ∧ State.reset.pc = 0 ∧
  State.reset.flags = ⟨false, false, false, false⟩ ∧ State.reset.running = true ∧ State.reset.fault = none ∧
  ∀ a, State.reset.readMem a = 0

/-- Loading after reset: a program of at most 65536 words lies at addresses 0, 1, 2, ..., every other word is 0x0000,
all other state is as reset left it, and the invariant holds; a longer program is refused (the range is decision
D29, log 10). -/
def Obligations.LoadPlacesTheProgram : Prop :=
  ∀ program : List Word,
    if program.length ≤ 65536 then
      ∃ s, boot program = .ok s ∧ (∀ a : Word, s.readMem a = program.getD a.toNat 0) ∧ s.regs = State.reset.regs ∧
        s.pc = 0 ∧ s.flags = State.reset.flags ∧ s.running = true ∧ s.fault = none ∧ s.Inv
    else boot program = .error .programTooLong

/-- A program file has two bytes a word and reads back as the words written, in either byte order; an odd number of
bytes is no program (the order is an open parameter, decision D28, log 12). -/
def Obligations.ProgramFilesReadBack : Prop :=
  ∀ (order : ByteOrder),
    (∀ ws : List Word, (fileBytes order ws).length = 2 * ws.length ∧ fileWords order (fileBytes order ws) = .ok ws) ∧
    ∀ bs : List Byte, bs.length % 2 = 1 → fileWords order bs = .error .oddByteCount

/-! ### Encoding and the assembler -/

/-- Decoding and encoding are inverse: every instruction with every operand decodes from its word, and every word is
that of the instruction it decodes to (30_encoding.md sections 1 and 4; the two decided layouts are D1 and D2,
log 6). -/
def Obligations.DecodeAndEncodeAreInverse : Prop :=
  (∀ i : Instr, decode (encode i) = i) ∧ ∀ w : Word, encode (decode w) = w

/-- The rows of spec/opcode_table.json partition the words: a word matches row k exactly when it decodes to that row's
instruction (30_encoding.md section 4; ignoring the unused bits is decision D5, log 6). -/
def Obligations.OpcodeTableRowsPartitionTheWords : Prop :=
  ∀ (w : Word) (k : Nat), k < 35 → (matchesRow w k = true ↔ (decode w).row = k)

/-- The bits the engine does not examine do not matter: an instruction and the same with those bits zero do the same,
but for the word in the fault record, which is the word as fetched (decision D5, log 6; log 3). -/
def Obligations.IgnoredBitsDoNotMatter : Prop :=
  ∀ (i : Instr) (s t u : State), exec i s = .next t → exec i.clearIgnored s = .next u → sameButFaultWord t u

/-- Words written out from the formats of 30_encoding.md decode to the instructions they stand for, one for each
family. -/
def Obligations.WrittenOutWordsDecode : Prop :=
  decode 0b0000000000000000#16 = .hlt 0 ∧
  decode 0b0001001010000000#16 = .addReg .r1 .r2 0 ∧
  decode 0b1000001000100011#16 = .shrImm .r1 4 ∧
  decode 0b1001001000001011#16 = .movImm .r1 5 ∧
  decode 0b1010001010111111#16 = .ld .r1 .r2 (-1) ∧
  decode 0b1100010000001110#16 = .pop 7 0 ∧
  decode 0b1101001010000000#16 = .cmp .r1 .r2 0 ∧
  decode 0b1110001111111101#16 = .br .ne (-3) ∧
  decode 0b1111000000000011#16 = .call 3

/-- R72: the words of an assembled program decode to the instructions the assembler intended. -/
def Obligations.AssembledWordsDecodeBack : Prop :=
  ∀ (source : Text) (is : List Instr), assembleInstrs source = .ok is →
    ∃ ws, assemble source = .ok ws ∧ ws.map decode = is

/-- What the assembler emits is well formed: ignored bits as the encoding section fixes them, no reserved or
out-of-range field, and one word for each instruction line (30_encoding.md sections 4 and 5; log 13). -/
def Obligations.AssembledInstructionsAreWellFormed : Prop :=
  ∀ (source : Text) (is : List Instr), assembleInstrs source = .ok is →
    (∀ i ∈ is, i.wellFormed = true) ∧
    ∀ ls, readLines 1 (splitLines source) = .ok ls → is.length = (ls.filter fun l => !l.instr.isEmpty).length

/-- An assembly error identifies its line, and its mnemonic unless a label definition is at fault; no word is emitted
(30_encoding.md section 5; which kinds exist and that a diagnostic names a label definition without a mnemonic is the
model's choice, log 13). -/
def Obligations.AssemblyErrorsIdentifyMnemonicAndLine : Prop :=
  ∀ (source : Text) (e : AsmError), assemble source = .error e →
    1 ≤ e.line ∧ ∃ raw, (splitLines source)[e.line - 1]? = some raw ∧
      if e.kind = .badLabel ∨ e.kind = .duplicateLabel then e.mnemonic = none
      else ∃ l, readLine e.line raw = .ok l ∧ l.instr ≠ [] ∧ e.mnemonic = some (mnemonicText l.instr)

/-- The branch offset law: for a branch at index a to a label at index b, the emitted offset lands the pc exactly on b,
within a − 255 .. a + 256 for BR, and a label further away is an overflow; the same for CALL with its own reach
(the law of 47_branch.md; the wrap is decision D19, log 9). -/
def Obligations.AssembledOffsetsLandOnTheirLabels : Prop :=
  ∀ (labels : LabelTable) (name : Text) (a b : Nat), labels.lookup name = some b → a < 65536 → b < 65536 →
    (if a ≤ b + 255 ∧ b ≤ a + 256 then
      ∃ off, readLabel .off9 9 labels a name = .ok off ∧
        ∀ (s : State) (c : Cond), s.running = true → s.pc.toNat = a → s.readMem s.pc = encode (.br c off) →
          condHolds s.flags c = true → ∃ t, step s = .next t ∧ t.pc.toNat = b
     else readLabel .off9 9 labels a name = .error (.fieldOverflow .off9, name)) ∧
    (if a ≤ b + 1023 ∧ b ≤ a + 1024 then
      ∃ off, readLabel .off11 11 labels a name = .ok off ∧
        ∀ s : State, s.running = true → s.pc.toNat = a → s.readMem s.pc = encode (.call off) →
          0xF000 ≤ (s.reg .r0).toNat → ∃ t, step s = .next t ∧ t.pc.toNat = b
     else readLabel .off11 11 labels a name = .error (.fieldOverflow .off11, name))

/-! ### Laws over two instructions -/

/-- The stack law: PUSH of a value and then POP into any register but r0 gives the register the value and SP its old
one; POP into r0 gives r0 the value (20_memory.md section 5; decisions D15, D24, log 8). -/
def Obligations.PushThenPopRestores : Prop :=
  ∀ (s : State) (i j : BitVec 9) (a b : BitVec 1) (rd : Reg), 0xF000 ≤ (s.reg .r0).toNat → i.toNat ≤ 7 → j.toNat ≤ 7 →
    rd = Reg.ofBits (j.setWidth 3) →
    ∃ t u : State, exec (.pushReg i a) s = .next t ∧ exec (.pop j b) t = .next u ∧
      u.reg rd = s.reg (Reg.ofBits (i.setWidth 3)) ∧ (rd ≠ .r0 → u.reg .r0 = s.reg .r0) ∧
      sameRegsExcept [.r0, rd] s u ∧ sameMemExcept [s.reg .r0] s u

/-- The linkage law: a CALL to a RET comes back to the instruction after the CALL with every register as before, SP
among them, when the pushed word does not fall on the RET (48_call_ret.md; decisions D8, D15, log 6, log 8). -/
def Obligations.CallThenReturnComesBack : Prop :=
  ∀ (s : State) (off ign : BitVec 11), s.running = true → 0xF000 ≤ (s.reg .r0).toNat →
    decode (s.readMem s.pc) = .call off → decode (s.readMem (s.pc + 1 + off.signExtend 16)) = .ret ign →
    s.pc + 1 + off.signExtend 16 ≠ s.reg .r0 →
    ∃ t u : State, step s = .next t ∧ step t = .next u ∧ t.pc = s.pc + 1 + off.signExtend 16 ∧ u.pc = s.pc + 1 ∧
      u.regs = s.regs ∧ u.flags = s.flags ∧ sameMemExcept [s.reg .r0] s u ∧ u.running = true

/-- What the ordered conditions see after a CMP: with V clear they agree with the signed order of the operands, with V
set they report its opposite, since no condition reads V (the table of 46_cmp.md; decision D33, log 7). -/
def Obligations.OrderedConditionsIgnoreOverflow : Prop :=
  ∀ a b : Word,
    (condHolds (compareFlags a b) .eq = true ↔ a = b) ∧ (condHolds (compareFlags a b) .ne = true ↔ a ≠ b) ∧
    (if (compareFlags a b).v then
      (condHolds (compareFlags a b) .lt = true ↔ b.toInt < a.toInt) ∧
      (condHolds (compareFlags a b) .gt = true ↔ a.toInt < b.toInt) ∧
      (condHolds (compareFlags a b) .le = true ↔ b.toInt < a.toInt) ∧
      (condHolds (compareFlags a b) .ge = true ↔ a.toInt < b.toInt)
     else
      (condHolds (compareFlags a b) .lt = true ↔ a.toInt < b.toInt) ∧
      (condHolds (compareFlags a b) .gt = true ↔ b.toInt < a.toInt) ∧
      (condHolds (compareFlags a b) .le = true ↔ a.toInt ≤ b.toInt) ∧
      (condHolds (compareFlags a b) .ge = true ↔ b.toInt ≤ a.toInt))
end

