-- ==== Sys2Proof/Laws/Assembler.lean ====
section
/-! SUPPORT. What each part of the assembler's reading of lines and of its field check can answer. -/

namespace Sys2Proof.Machine

/-- A value fits its field, or the answer is that field's overflow (R69). -/
theorem fitField_cases (field : AsmField) (n : Nat) (t : Text) (v : Int) :
    (field.least ≤ v ∧ v ≤ field.greatest ∧ fitField field n t v = .ok (BitVec.ofInt n v)) ∨
      ((v < field.least ∨ field.greatest < v) ∧ fitField field n t v = .error (.fieldOverflow field, t)) := by
  unfold fitField
  by_cases h : field.least ≤ v ∧ v ≤ field.greatest
  · exact .inl ⟨h.1, h.2, by rw [if_pos h]⟩
  · exact .inr ⟨by omega, by rw [if_neg h]⟩

/-- A line that is read keeps its number. -/
theorem readLine_number {number : Nat} {raw : Text} {l : SourceLine} (h : readLine number raw = .ok l) :
    l.number = number := by
  unfold readLine at h
  simp only at h
  split at h
  · split at h
    · cases h
    · cases h
      rfl
  · cases h
    rfl

/-- A line that is not read is one whose label is bad. -/
theorem readLine_error {number : Nat} {raw : Text} {e : AsmError} (h : readLine number raw = .error e) :
    e.line = number ∧ e.kind = .badLabel ∧ e.mnemonic = none := by
  unfold readLine at h
  simp only at h
  split at h
  · split at h
    · cases h
      exact ⟨rfl, rfl, rfl⟩
    · cases h
  · cases h

/-- Every line of a source that is read stands in it, at its number. -/
theorem readLines_ok {number : Nat} {raws : List Text} {ls : List SourceLine} (h : readLines number raws = .ok ls) :
    ∀ l ∈ ls, number ≤ l.number ∧ ∃ raw, raws[l.number - number]? = some raw ∧ readLine l.number raw = .ok l := by
  induction raws generalizing number ls with
  | nil =>
    cases h
    simp
  | cons raw rest ih =>
    unfold readLines at h
    cases hl : readLine number raw with
    | error e =>
      rw [hl] at h
      cases h
    | ok first =>
      rw [hl] at h
      cases hr : readLines (number + 1) rest with
      | error e =>
        rw [hr] at h
        cases h
      | ok others =>
        rw [hr] at h
        cases h
        have hn := readLine_number hl
        intro l hmem
        rcases List.mem_cons.mp hmem with rfl | hmem
        · exact ⟨by omega, raw, by simp [hn], by rw [hn]; exact hl⟩
        · obtain ⟨hle, raw', hget, hread⟩ := ih hr l hmem
          refine ⟨by omega, raw', ?_, hread⟩
          rw [show l.number - number = l.number - (number + 1) + 1 by omega, List.getElem?_cons_succ]
          exact hget

/-- A source that is not read has a line whose label is bad, and the error names that line. -/
theorem readLines_error {number : Nat} {raws : List Text} {e : AsmError} (h : readLines number raws = .error e) :
    number ≤ e.line ∧ (∃ raw, raws[e.line - number]? = some raw) ∧ e.kind = .badLabel ∧ e.mnemonic = none := by
  induction raws generalizing number with
  | nil => cases h
  | cons raw rest ih =>
    unfold readLines at h
    cases hl : readLine number raw with
    | error e' =>
      rw [hl] at h
      cases h
      have he := readLine_error hl
      exact ⟨by omega, ⟨raw, by simp [he.1]⟩, he.2⟩
    | ok first =>
      rw [hl] at h
      cases hr : readLines (number + 1) rest with
      | ok others =>
        rw [hr] at h
        cases h
      | error e' =>
        rw [hr] at h
        cases h
        obtain ⟨hle, ⟨raw', hget⟩, hkind⟩ := ih hr
        refine ⟨by omega, ⟨raw', ?_⟩, hkind⟩
        rw [show e.line - number = e.line - (number + 1) + 1 by omega, List.getElem?_cons_succ]
        exact hget

/-- Pass 1 fails on a duplicate label only, and the error names the line of the second definition. -/
theorem collectLabels_error {index : Nat} {labels : LabelTable} {ls : List SourceLine} {e : AsmError}
    (h : collectLabels index labels ls = .error e) :
    ∃ l ∈ ls, e.line = l.number ∧ e.kind = .duplicateLabel ∧ e.mnemonic = none := by
  induction ls generalizing index labels with
  | nil => cases h
  | cons l rest ih =>
    unfold collectLabels at h
    simp only at h
    split at h
    · obtain ⟨l', hmem, he⟩ := ih h
      exact ⟨l', List.mem_cons_of_mem _ hmem, he⟩
    · split at h
      · cases h
        exact ⟨l, List.mem_cons_self, rfl, rfl, rfl⟩
      · obtain ⟨l', hmem, he⟩ := ih h
        exact ⟨l', List.mem_cons_of_mem _ hmem, he⟩

/-- Pass 2 fails where one instruction line does, and the error names that line and its mnemonic (R70). -/
theorem asmLines_error {labels : LabelTable} {index : Nat} {ls : List SourceLine} {e : AsmError}
    (h : asmLines labels index ls = .error e) :
    ∃ l ∈ ls, ∃ current, l.instr ≠ [] ∧ asmText labels current l.instr = .error (e.kind, e.token) ∧
      e.line = l.number ∧ e.mnemonic = some (mnemonicText l.instr) := by
  induction ls generalizing index with
  | nil => cases h
  | cons l rest ih =>
    unfold asmLines at h
    split at h
    · obtain ⟨l', hmem, he⟩ := ih h
      exact ⟨l', List.mem_cons_of_mem _ hmem, he⟩
    · rename_i hne
      split at h
      · rename_i kind token hk
        cases h
        exact ⟨l, List.mem_cons_self, index, by simpa using hne, hk, rfl, rfl⟩
      · cases hr : asmLines labels (index + 1) rest with
        | ok is =>
          rw [hr] at h
          cases h
        | error e' =>
          rw [hr] at h
          cases h
          obtain ⟨l', hmem, he⟩ := ih hr
          exact ⟨l', List.mem_cons_of_mem _ hmem, he⟩

end Sys2Proof.Machine
end

