-- ==== Sys2Proof/Laws/State.lean ====
section
/-! SUPPORT. One lemma per field per update of the state, true by rfl, so that no proof unfolds a record update. -/

namespace Sys2Proof.Machine

@[simp] theorem State.setReg_regs (s : State) (r : Reg) (v : Word) : (s.setReg r v).regs = s.regs.set r v := rfl
@[simp] theorem State.setReg_pc (s : State) (r : Reg) (v : Word) : (s.setReg r v).pc = s.pc := rfl
@[simp] theorem State.setReg_flags (s : State) (r : Reg) (v : Word) : (s.setReg r v).flags = s.flags := rfl
@[simp] theorem State.setReg_running (s : State) (r : Reg) (v : Word) : (s.setReg r v).running = s.running := rfl
@[simp] theorem State.setReg_fault (s : State) (r : Reg) (v : Word) : (s.setReg r v).fault = s.fault := rfl
@[simp] theorem State.setReg_mem (s : State) (r : Reg) (v : Word) : (s.setReg r v).mem = s.mem := rfl

@[simp] theorem State.setSp_regs (s : State) (v : Word) : (s.setSp v).regs = s.regs.set spReg v := rfl
@[simp] theorem State.setSp_pc (s : State) (v : Word) : (s.setSp v).pc = s.pc := rfl
@[simp] theorem State.setSp_flags (s : State) (v : Word) : (s.setSp v).flags = s.flags := rfl
@[simp] theorem State.setSp_running (s : State) (v : Word) : (s.setSp v).running = s.running := rfl
@[simp] theorem State.setSp_fault (s : State) (v : Word) : (s.setSp v).fault = s.fault := rfl
@[simp] theorem State.setSp_mem (s : State) (v : Word) : (s.setSp v).mem = s.mem := rfl

@[simp] theorem State.writeMem_regs (s : State) (a v : Word) : (s.writeMem a v).regs = s.regs := rfl
@[simp] theorem State.writeMem_pc (s : State) (a v : Word) : (s.writeMem a v).pc = s.pc := rfl
@[simp] theorem State.writeMem_flags (s : State) (a v : Word) : (s.writeMem a v).flags = s.flags := rfl
@[simp] theorem State.writeMem_running (s : State) (a v : Word) : (s.writeMem a v).running = s.running := rfl
@[simp] theorem State.writeMem_fault (s : State) (a v : Word) : (s.writeMem a v).fault = s.fault := rfl
@[simp] theorem State.writeMem_mem (s : State) (a v : Word) : (s.writeMem a v).mem = s.mem.write a.toNat v := rfl

@[simp] theorem State.setPc_regs (s : State) (p : Word) : (s.setPc p).regs = s.regs := rfl
@[simp] theorem State.setPc_pc (s : State) (p : Word) : (s.setPc p).pc = p := rfl
@[simp] theorem State.setPc_flags (s : State) (p : Word) : (s.setPc p).flags = s.flags := rfl
@[simp] theorem State.setPc_running (s : State) (p : Word) : (s.setPc p).running = s.running := rfl
@[simp] theorem State.setPc_fault (s : State) (p : Word) : (s.setPc p).fault = s.fault := rfl
@[simp] theorem State.setPc_mem (s : State) (p : Word) : (s.setPc p).mem = s.mem := rfl

@[simp] theorem State.setFlags_regs (s : State) (f : Flags) : (s.setFlags f).regs = s.regs := rfl
@[simp] theorem State.setFlags_pc (s : State) (f : Flags) : (s.setFlags f).pc = s.pc := rfl
@[simp] theorem State.setFlags_flags (s : State) (f : Flags) : (s.setFlags f).flags = f := rfl
@[simp] theorem State.setFlags_running (s : State) (f : Flags) : (s.setFlags f).running = s.running := rfl
@[simp] theorem State.setFlags_fault (s : State) (f : Flags) : (s.setFlags f).fault = s.fault := rfl
@[simp] theorem State.setFlags_mem (s : State) (f : Flags) : (s.setFlags f).mem = s.mem := rfl

@[simp] theorem State.halt_regs (s : State) : s.halt.regs = s.regs := rfl
@[simp] theorem State.halt_pc (s : State) : s.halt.pc = s.pc := rfl
@[simp] theorem State.halt_flags (s : State) : s.halt.flags = s.flags := rfl
@[simp] theorem State.halt_running (s : State) : s.halt.running = false := rfl
@[simp] theorem State.halt_fault (s : State) : s.halt.fault = s.fault := rfl
@[simp] theorem State.halt_mem (s : State) : s.halt.mem = s.mem := rfl

@[simp] theorem raiseFault_regs (t : Trap) (w : Word) (s : State) : (raiseFault t w s).regs = s.regs := rfl
@[simp] theorem raiseFault_pc (t : Trap) (w : Word) (s : State) : (raiseFault t w s).pc = s.pc := rfl
@[simp] theorem raiseFault_flags (t : Trap) (w : Word) (s : State) : (raiseFault t w s).flags = s.flags := rfl
@[simp] theorem raiseFault_running (t : Trap) (w : Word) (s : State) : (raiseFault t w s).running = false := rfl
@[simp] theorem raiseFault_fault (t : Trap) (w : Word) (s : State) : (raiseFault t w s).fault = some ⟨t.cause, s.pc - 1, w, t.info⟩ := rfl
@[simp] theorem raiseFault_mem (t : Trap) (w : Word) (s : State) : (raiseFault t w s).mem = s.mem := rfl

@[simp] theorem advancePc_regs (s : State) : (advancePc s).regs = s.regs := rfl
@[simp] theorem advancePc_pc (s : State) : (advancePc s).pc = s.pc + 1 := rfl
@[simp] theorem advancePc_flags (s : State) : (advancePc s).flags = s.flags := rfl
@[simp] theorem advancePc_running (s : State) : (advancePc s).running = s.running := rfl
@[simp] theorem advancePc_fault (s : State) : (advancePc s).fault = s.fault := rfl
@[simp] theorem advancePc_mem (s : State) : (advancePc s).mem = s.mem := rfl

@[simp] theorem placeAtPc_regs (s : State) (w : Word) : (placeAtPc s w).regs = s.regs := rfl
@[simp] theorem placeAtPc_pc (s : State) (w : Word) : (placeAtPc s w).pc = s.pc := rfl
@[simp] theorem placeAtPc_flags (s : State) (w : Word) : (placeAtPc s w).flags = s.flags := rfl
@[simp] theorem placeAtPc_running (s : State) (w : Word) : (placeAtPc s w).running = true := rfl
@[simp] theorem placeAtPc_fault (s : State) (w : Word) : (placeAtPc s w).fault = s.fault := rfl
@[simp] theorem placeAtPc_mem (s : State) (w : Word) : (placeAtPc s w).mem = s.mem.write s.pc.toNat w := rfl

/-! ### Registers: a read after a write -/

theorem RegFile.get_set (f : RegFile) (r q : Reg) (v : Word) : (f.set r v).get q = if q = r then v else f.get q := by
  cases r <;> cases q <;> rfl

@[simp] theorem RegFile.get_set_same (f : RegFile) (r : Reg) (v : Word) : (f.set r v).get r = v := by
  rw [RegFile.get_set, if_pos rfl]

theorem RegFile.get_set_ne (f : RegFile) {r q : Reg} (v : Word) (h : q ≠ r) : (f.set r v).get q = f.get q := by
  rw [RegFile.get_set, if_neg h]

/-- Two register files that read the same everywhere are equal. -/
theorem RegFile.eq_of_get {f g : RegFile} (h : ∀ r, f.get r = g.get r) : f = g := by
  cases f
  cases g
  simp only [RegFile.mk.injEq]
  exact ⟨h .r0, h .r1, h .r2, h .r3, h .r4, h .r5, h .r6, h .r7⟩

theorem State.reg_setReg (s : State) (r q : Reg) (v : Word) : (s.setReg r v).reg q = if q = r then v else s.reg q :=
  RegFile.get_set s.regs r q v

@[simp] theorem State.reg_setReg_same (s : State) (r : Reg) (v : Word) : (s.setReg r v).reg r = v :=
  RegFile.get_set_same s.regs r v

theorem State.reg_setReg_ne (s : State) {r q : Reg} (v : Word) (h : q ≠ r) : (s.setReg r v).reg q = s.reg q :=
  RegFile.get_set_ne s.regs v h

@[simp] theorem State.sp_setSp (s : State) (v : Word) : (s.setSp v).sp = v := State.reg_setReg_same s spReg v

theorem State.reg_setSp_ne (s : State) {q : Reg} (v : Word) (h : q ≠ .r0) : (s.setSp v).reg q = s.reg q :=
  State.reg_setReg_ne s v h

theorem State.sp_eq (s : State) : s.sp = s.reg .r0 := rfl

@[simp] theorem State.writeMem_reg (s : State) (a v : Word) (q : Reg) : (s.writeMem a v).reg q = s.reg q := rfl
@[simp] theorem State.setPc_reg (s : State) (p : Word) (q : Reg) : (s.setPc p).reg q = s.reg q := rfl
@[simp] theorem State.setFlags_reg (s : State) (f : Flags) (q : Reg) : (s.setFlags f).reg q = s.reg q := rfl
@[simp] theorem State.halt_reg (s : State) (q : Reg) : s.halt.reg q = s.reg q := rfl
@[simp] theorem raiseFault_reg (t : Trap) (w : Word) (s : State) (q : Reg) : (raiseFault t w s).reg q = s.reg q := rfl
@[simp] theorem advancePc_reg (s : State) (q : Reg) : (advancePc s).reg q = s.reg q := rfl
@[simp] theorem placeAtPc_reg (s : State) (w : Word) (q : Reg) : (placeAtPc s w).reg q = s.reg q := rfl

/-! ### Memory reads through the updates that leave memory alone -/

@[simp] theorem State.setReg_readMem (s : State) (r : Reg) (v : Word) (a : Word) : (s.setReg r v).readMem a = s.readMem a := rfl
@[simp] theorem State.setSp_readMem (s : State) (v : Word) (a : Word) : (s.setSp v).readMem a = s.readMem a := rfl
@[simp] theorem State.setPc_readMem (s : State) (p : Word) (a : Word) : (s.setPc p).readMem a = s.readMem a := rfl
@[simp] theorem State.setFlags_readMem (s : State) (f : Flags) (a : Word) : (s.setFlags f).readMem a = s.readMem a := rfl
@[simp] theorem State.halt_readMem (s : State) (a : Word) : s.halt.readMem a = s.readMem a := rfl
@[simp] theorem raiseFault_readMem (t : Trap) (w : Word) (s : State) (a : Word) :
    (raiseFault t w s).readMem a = s.readMem a := rfl
@[simp] theorem advancePc_readMem (s : State) (a : Word) : (advancePc s).readMem a = s.readMem a := rfl

end Sys2Proof.Machine
end

