-- ==== Sys2Proof/Laws/Memory.lean ====
section
/-! SUPPORT. Memory: a read after a write, and every operation keeps the canonical form. -/

namespace Sys2Proof.Machine

/-! ### What one address reads as after each operation -/

theorem Memory.read_erase (m : Memory) (a b : Nat) : (m.erase a).read b = if b = a then 0 else m.read b := by
  induction m with
  | nil => simp [Memory.erase, Memory.read]
  | cons cell rest ih =>
    obtain ⟨k, v⟩ := cell
    simp only [Memory.erase, Memory.read]
    by_cases hk : k = a
    · subst hk
      rw [if_pos rfl, ih]
      by_cases hb : b = k
      · simp [hb]
      · simp [hb, Ne.symm hb]
    · rw [if_neg hk]
      simp only [Memory.read, ih]
      by_cases hb : k = b
      · subst hb
        simp [hk]
      · simp [hb]

theorem Memory.erase_no_cell (m : Memory) (a : Nat) : ∀ c ∈ m.erase a, c.1 ≠ a := by
  induction m with
  | nil => simp [Memory.erase]
  | cons cell rest ih =>
    obtain ⟨k, v⟩ := cell
    simp only [Memory.erase]
    by_cases hk : k = a
    · rw [if_pos hk]
      exact ih
    · rw [if_neg hk]
      intro c hc
      rcases List.mem_cons.mp hc with rfl | hc
      · exact hk
      · exact ih c hc

theorem Memory.read_insert (m : Memory) (a b : Nat) (v : Word) (h : ∀ c ∈ m, c.1 ≠ a) :
    (m.insert a v).read b = if b = a then v else m.read b := by
  induction m with
  | nil => simp [Memory.insert, Memory.read, eq_comm]
  | cons cell rest ih =>
    obtain ⟨k, u⟩ := cell
    have hk : k ≠ a := h (k, u) (by simp)
    have ih := ih fun c hc => h c (List.mem_cons_of_mem _ hc)
    simp only [Memory.insert]
    by_cases hlt : a < k
    · rw [if_pos hlt]
      simp only [Memory.read, eq_comm (a := a)]
    · rw [if_neg hlt]
      simp only [Memory.read, ih]
      by_cases hb : k = b
      · subst hb
        simp [hk]
      · simp [hb]

/-- A read after a write: the written address gives the value, every other address what it gave before. -/
theorem Memory.read_write (m : Memory) (a b : Nat) (v : Word) :
    (m.write a v).read b = if b = a then v else m.read b := by
  unfold Memory.write
  by_cases hv : v = 0
  · rw [if_pos hv, Memory.read_erase, hv]
  · rw [if_neg hv, Memory.read_insert _ _ _ _ (m.erase_no_cell a), Memory.read_erase]
    by_cases hb : b = a
    · simp [hb]
    · simp [hb]

theorem State.readMem_writeMem (s : State) (a b v : Word) :
    (s.writeMem a v).readMem b = if b = a then v else s.readMem b := by
  unfold State.readMem State.writeMem
  rw [Memory.read_write]
  simp only [BitVec.toNat_inj]

@[simp] theorem State.readMem_writeMem_same (s : State) (a v : Word) : (s.writeMem a v).readMem a = v := by
  rw [State.readMem_writeMem, if_pos rfl]

theorem State.readMem_writeMem_ne (s : State) {a b : Word} (v : Word) (h : b ≠ a) :
    (s.writeMem a v).readMem b = s.readMem b := by
  rw [State.readMem_writeMem, if_neg h]

/-! ### The canonical form -/

theorem Memory.wfFrom_cons {lo k : Nat} {v : Word} {rest : Memory} :
    Memory.wfFrom lo ((k, v) :: rest) = true ↔
      lo ≤ k ∧ k < Config.memWords ∧ v ≠ 0 ∧ Memory.wfFrom (k + 1) rest = true := by
  simp [Memory.wfFrom, and_assoc]

theorem Memory.wfFrom_mono {lo lo' : Nat} {m : Memory} (h : lo' ≤ lo) (hm : Memory.wfFrom lo m = true) :
    Memory.wfFrom lo' m = true := by
  cases m with
  | nil => rfl
  | cons cell rest =>
    obtain ⟨k, v⟩ := cell
    rw [Memory.wfFrom_cons] at hm ⊢
    exact ⟨le_trans h hm.1, hm.2⟩

theorem Memory.wfFrom_erase {lo : Nat} {m : Memory} (a : Nat) (hm : Memory.wfFrom lo m = true) :
    Memory.wfFrom lo (m.erase a) = true := by
  induction m generalizing lo with
  | nil => rfl
  | cons cell rest ih =>
    obtain ⟨k, v⟩ := cell
    obtain ⟨hlo, hk, hv, hrest⟩ := Memory.wfFrom_cons.mp hm
    simp only [Memory.erase]
    by_cases hka : k = a
    · rw [if_pos hka]
      exact ih (Memory.wfFrom_mono (by omega) hrest)
    · rw [if_neg hka]
      exact Memory.wfFrom_cons.mpr ⟨hlo, hk, hv, ih hrest⟩

theorem Memory.wfFrom_insert {lo a : Nat} {v : Word} {m : Memory} (hm : Memory.wfFrom lo m = true)
    (ha : ∀ c ∈ m, c.1 ≠ a) (hlo : lo ≤ a) (hlt : a < Config.memWords) (hv : v ≠ 0) :
    Memory.wfFrom lo (m.insert a v) = true := by
  induction m generalizing lo with
  | nil => exact Memory.wfFrom_cons.mpr ⟨hlo, hlt, hv, rfl⟩
  | cons cell rest ih =>
    obtain ⟨k, u⟩ := cell
    obtain ⟨hk, hkw, hu, hrest⟩ := Memory.wfFrom_cons.mp hm
    have hne : k ≠ a := ha (k, u) (by simp)
    simp only [Memory.insert]
    by_cases hak : a < k
    · rw [if_pos hak]
      exact Memory.wfFrom_cons.mpr ⟨hlo, hlt, hv, Memory.wfFrom_cons.mpr ⟨hak, hkw, hu, hrest⟩⟩
    · rw [if_neg hak]
      exact Memory.wfFrom_cons.mpr
        ⟨hk, hkw, hu, ih hrest (fun c hc => ha c (List.mem_cons_of_mem _ hc)) (by omega)⟩

/-- A write inside the address space keeps the canonical form. -/
theorem Memory.wf_write {m : Memory} (hm : m.wf = true) {a : Nat} (ha : a < Config.memWords) (v : Word) :
    (m.write a v).wf = true := by
  unfold Memory.wf Memory.write at *
  by_cases hv : v = 0
  · rw [if_pos hv]
    exact Memory.wfFrom_erase a hm
  · rw [if_neg hv]
    exact Memory.wfFrom_insert (Memory.wfFrom_erase a hm) (m.erase_no_cell a) (Nat.zero_le a) ha hv

/-- Every store of the machine keeps the canonical form: a 16-bit address lies inside the space. -/
theorem State.wf_writeMem {s : State} (hs : s.mem.wf = true) (a v : Word) : (s.writeMem a v).mem.wf = true :=
  Memory.wf_write hs (by simpa [Config.memWords] using a.isLt) v

/-- Placing an instruction keeps the canonical form. -/
theorem placeAtPc_wf {s : State} (hs : s.mem.wf = true) (w : Word) : (placeAtPc s w).mem.wf = true :=
  State.wf_writeMem hs s.pc w

/-- The reset memory has the canonical form. -/
theorem State.reset_wf : State.reset.mem.wf = true := rfl

end Sys2Proof.Machine
end

