-- ==== Sys2Proof/Laws/Ops.lean ====
section
/-! SUPPORT. For each shared operation, one lemma that says once everything it can do; proofs cite these and unfold
nothing. -/

namespace Sys2Proof.Machine

/-! ### Names -/

@[simp] theorem reg_ofBits_bits (r : Reg) : Reg.ofBits r.bits = r := by cases r <;> rfl

@[simp] theorem reg_bits_ofBits (b : BitVec 3) : (Reg.ofBits b).bits = b := by
  revert b
  decide

@[simp] theorem cond_ofBits_bits (c : Cond) : Cond.ofBits c.bits = c := by cases c <;> rfl

@[simp] theorem cond_bits_ofBits (b : BitVec 3) : (Cond.ofBits b).bits = b := by
  revert b
  decide

/-! ### The end of an execute phase (R120) -/

@[simp] theorem complete_ok (w : Word) (s t : State) : complete w s (.ok t) = .next t := rfl

@[simp] theorem complete_error (w : Word) (s : State) (trap : Trap) :
    complete w s (.error trap) = .next (raiseFault trap w s) := rfl

/-- An execute phase always ends in a next state: the computed one, or the start state with the fault taken. -/
theorem complete_cases (w : Word) (s : State) (r : Except Trap State) :
    (∃ t, r = .ok t ∧ complete w s r = .next t) ∨
      ∃ trap, r = .error trap ∧ complete w s r = .next (raiseFault trap w s) := by
  cases r with
  | ok t => exact .inl ⟨t, rfl, rfl⟩
  | error trap => exact .inr ⟨trap, rfl, rfl⟩

/-- Raising a fault changes `running` and the fault record only (R120). -/
theorem raiseFault_trapped (t : Trap) (w : Word) (s : State) : trapped t.cause t.info w s (raiseFault t w s) :=
  ⟨rfl, ⟨_, rfl, rfl, rfl, rfl, by simp⟩, fun _ _ => rfl, fun _ _ => rfl, rfl, rfl⟩

/-- The same for a whole execute phase that raised. -/
theorem complete_error_traps (cause : FaultCause) (info w : Word) (s : State) :
    trapsWith cause info w s (complete w s (.error ⟨cause, info⟩)) :=
  ⟨_, rfl, raiseFault_trapped ⟨cause, info⟩ w s⟩

/-- Writing one register changes that register only. -/
theorem setReg_onlyReg (s : State) (rd : Reg) (v : Word) : onlyReg rd v s (s.setReg rd v) :=
  ⟨State.reg_setReg_same s rd v, fun _ hr => State.reg_setReg_ne s v (by simpa using hr), fun _ _ => rfl,
    ⟨rfl, rfl, rfl⟩, rfl⟩

/-- An execute phase that ends by writing one register with a value that has the property. -/
theorem next_setReg_onlyRegSuch {P : Word → Prop} (s : State) (rd : Reg) {v : Word} (h : P v) :
    onlyRegSuch rd P s (.next (s.setReg rd v)) := by
  refine ⟨_, rfl, ?_, ?_⟩
  · rw [State.reg_setReg_same]
    exact h
  · rw [State.reg_setReg_same]
    exact setReg_onlyReg s rd v

/-! ### Operands -/

/-- A wide register field either names a register, or raises with the field's value (R127). -/
theorem wideRegIndex_ok {n : Nat} {f : BitVec n} (h : f.toNat ≤ 7) : wideRegIndex f = .ok (Reg.ofBits (f.setWidth 3)) := by
  unfold wideRegIndex
  rw [if_neg (by omega)]

theorem wideRegIndex_error {n : Nat} {f : BitVec n} (h : 7 < f.toNat) :
    wideRegIndex f = .error ⟨.registerIndexOutOfRange, f.setWidth 16⟩ := by
  unfold wideRegIndex
  rw [if_pos h]

theorem regAmount_ok {idx : BitVec 6} (h : idx.toNat ≤ 7) (s : State) :
    regAmount idx s = .ok (s.reg (Reg.ofBits (idx.setWidth 3))).toNat := by
  rw [regAmount, wideRegIndex_ok h]
  rfl

theorem regAmount_error {idx : BitVec 6} (h : 7 < idx.toNat) (s : State) :
    regAmount idx s = .error ⟨.registerIndexOutOfRange, idx.setWidth 16⟩ := by
  rw [regAmount, wideRegIndex_error h]
  rfl

/-- The protected range as numbers (R36). -/
theorem isProtected_iff (a : Word) : isProtected a = true ↔ 0x0100 ≤ a.toNat ∧ a.toNat ≤ 0x7FFF := by
  simp [isProtected, Config.protLo, Config.protHi, BitVec.le_def]

theorem dataAddress_ok {s : State} {rb : Reg} {off : BitVec 6} (h : isProtected (effectiveAddress s rb off) = false) :
    dataAddress s rb off = .ok (effectiveAddress s rb off) := by
  unfold dataAddress
  rw [h]
  rfl

theorem dataAddress_error {s : State} {rb : Reg} {off : BitVec 6} (h : isProtected (effectiveAddress s rb off) = true) :
    dataAddress s rb off = .error ⟨.protectedAccess, effectiveAddress s rb off⟩ := by
  unfold dataAddress
  rw [if_pos h]

/-- DIV writes the quotient, unless the divisor is zero. -/
theorem divide_ok {b : Word} (h : b ≠ 0) (rd : Reg) (s : State) : divide rd b s = .ok (s.setReg rd (s.reg rd / b)) := by
  unfold divide
  rw [if_neg h]

theorem divide_error (rd : Reg) (s : State) : divide rd 0 s = .error ⟨.divideByZero, 0⟩ := rfl

/-- A register shift writes the shifted value, unless its index names no register. -/
theorem shiftByReg_ok {idx : BitVec 6} (h : idx.toNat ≤ 7) (f : Word → Nat → Word) (rd : Reg) (s : State) :
    shiftByReg f rd idx s = .ok (s.setReg rd (f (s.reg rd) (s.reg (Reg.ofBits (idx.setWidth 3))).toNat)) := by
  rw [shiftByReg, regAmount_ok h]
  rfl

theorem shiftByReg_error {idx : BitVec 6} (h : 7 < idx.toNat) (f : Word → Nat → Word) (rd : Reg) (s : State) :
    shiftByReg f rd idx s = .error ⟨.registerIndexOutOfRange, idx.setWidth 16⟩ := by
  rw [shiftByReg, regAmount_error h]
  rfl

/-! ### The stack primitives (R37, R38) -/

/-- Push either overflows, with nothing changed, or stores at SP and then decrements SP. -/
theorem push_cases (v : Word) (s : State) :
    ((s.reg .r0).toNat < 0xF000 ∧ push v s = .error ⟨.stackOverflow, s.reg .r0⟩) ∨
      (0xF000 ≤ (s.reg .r0).toNat ∧ push v s = .ok ((s.writeMem (s.reg .r0) v).setReg .r0 (s.reg .r0 - 1))) := by
  unfold push
  by_cases h : s.sp < Config.stackLo
  · exact .inl ⟨BitVec.lt_def.mp h, by rw [if_pos h]; rfl⟩
  · exact .inr ⟨Nat.le_of_not_lt fun hlt => h (BitVec.lt_def.mpr hlt), by rw [if_neg h]; rfl⟩

/-- Pop either underflows, with nothing changed, or increments SP and answers the word there. -/
theorem popWord_cases (s : State) :
    (s.reg .r0 = 0xFFFF ∧ popWord s = .error ⟨.stackUnderflow, 0xFFFF⟩) ∨
      (s.reg .r0 ≠ 0xFFFF ∧
        popWord s = .ok (s.readMem (s.reg .r0 + 1), s.setReg .r0 (s.reg .r0 + 1))) := by
  unfold popWord
  by_cases h : s.sp = Config.stackHi
  · exact .inl ⟨h, by rw [if_pos h, h]; rfl⟩
  · exact .inr ⟨h, by rw [if_neg h]; rfl⟩

theorem push_ok {s : State} (v : Word) (h : 0xF000 ≤ (s.reg .r0).toNat) :
    push v s = .ok ((s.writeMem (s.reg .r0) v).setReg .r0 (s.reg .r0 - 1)) := by
  rcases push_cases v s with h' | h'
  · exact absurd h'.1 (Nat.not_lt.mpr h)
  · exact h'.2

theorem push_error {s : State} (v : Word) (h : (s.reg .r0).toNat < 0xF000) :
    push v s = .error ⟨.stackOverflow, s.reg .r0⟩ := by
  rcases push_cases v s with h' | h'
  · exact h'.2
  · exact absurd h (Nat.not_lt.mpr h'.1)

theorem popWord_ok {s : State} (h : s.reg .r0 ≠ 0xFFFF) :
    popWord s = .ok (s.readMem (s.reg .r0 + 1), s.setReg .r0 (s.reg .r0 + 1)) := by
  rcases popWord_cases s with h' | h'
  · exact absurd h'.1 h
  · exact h'.2

theorem popWord_error {s : State} (h : s.reg .r0 = 0xFFFF) : popWord s = .error ⟨.stackUnderflow, 0xFFFF⟩ := by
  rcases popWord_cases s with h' | h'
  · exact h'.2
  · exact absurd h h'.1

/-! ### The fetch -/

/-- A Running machine executes what its pc points at, with the pc advanced (R21). -/
theorem step_running {s : State} (h : s.running = true) : step s = exec (decode (fetchWord s)) (advancePc s) := by
  unfold step
  rw [if_pos h]

/-- A Halted machine stays as it is (R20). -/
theorem step_halted {s : State} (h : s.running = false) : step s = .next s := by
  unfold step
  rw [h]
  rfl

/-- Everything a step can do: stay, in Halted, or execute what the pc points at. -/
theorem step_cases {s t : State} (h : step s = .next t) :
    (s.running = false ∧ t = s) ∨ (s.running = true ∧ exec (decode (s.readMem s.pc)) (advancePc s) = .next t) := by
  cases hr : s.running with
  | false =>
    rw [step_halted hr] at h
    cases h
    exact .inl ⟨rfl, rfl⟩
  | true =>
    rw [step_running hr] at h
    exact .inr ⟨rfl, h⟩

/-- What a placed instruction is fetched as. -/
@[simp] theorem fetchWord_placeAtPc (s : State) (w : Word) : fetchWord (placeAtPc s w) = w :=
  State.readMem_writeMem_same s s.pc w

/-! ### Runs (R145, R146) -/

/-- A run's first step, peeled off. -/
theorem core_run_succ {s t : State} (h : step s = .next t) (k : Nat) : core.run (k + 1) s = core.run k t := by
  simp only [Host.Core.run, core, h]

/-! ### Loading (R141) -/

/-- After loading, the words of the program are where the loader put them and every other word is as before. -/
theorem read_placeWords (m : Memory) (a b : Nat) (ws : List Word) :
    (placeWords m a ws).read b = if h : a ≤ b ∧ b - a < ws.length then ws[b - a]'h.2 else m.read b := by
  induction ws generalizing m a with
  | nil => simp [placeWords]
  | cons w ws ih =>
    simp only [placeWords, ih, Memory.read_write]
    by_cases hab : a + 1 ≤ b ∧ b - (a + 1) < ws.length
    · have h' : a ≤ b ∧ b - a < (w :: ws).length := by
        simp only [List.length_cons]
        omega
      rw [dif_pos hab, dif_pos h']
      have hs : b - a = b - (a + 1) + 1 := by omega
      simp only [hs, List.getElem_cons_succ]
    · rw [dif_neg hab]
      by_cases hb : b = a
      · subst hb
        simp
      · have h' : ¬(a ≤ b ∧ b - a < (w :: ws).length) := by
          simp only [List.length_cons]
          omega
        rw [if_neg hb, dif_neg h']

theorem wf_placeWords {m : Memory} (hm : m.wf = true) (a : Nat) (ws : List Word)
    (h : a + ws.length ≤ Config.memWords) : (placeWords m a ws).wf = true := by
  induction ws generalizing m a with
  | nil => exact hm
  | cons w ws ih =>
    simp only [List.length_cons] at h
    exact ih (Memory.wf_write hm (by omega) w) (a + 1) (by omega)

end Sys2Proof.Machine
end

