-- ==== Sys2Proof/Laws/Encoding.lean ====
section
/-! SUPPORT. The encoder's formats as numbers: what each format's word is worth, from which every field of it follows
by division. -/

namespace Sys2Proof

/-- Concatenation as arithmetic: `a ++ b` is `a` shifted up by the width of `b`, plus `b` (R7). -/
theorem toNat_append_add {n m : Nat} (a : BitVec n) (b : BitVec m) : (a ++ b).toNat = a.toNat * 2 ^ m + b.toNat := by
  rw [BitVec.toNat_append, ← Nat.shiftLeft_add_eq_or_of_lt b.isLt, Nat.shiftLeft_eq]

/-- A field of a word as arithmetic: `w[lo+len-1:lo]` (R7). -/
theorem toNat_field (w : Word) (lo len : Nat) : (w.extractLsb' lo len).toNat = w.toNat / 2 ^ lo % 2 ^ len := by
  rw [BitVec.extractLsb'_toNat, Nat.shiftRight_eq_div_pow]

theorem encodeN_toNat (ign : BitVec 12) : (encodeN ign).toNat = ign.toNat := by
  show (0x0#4 ++ ign).toNat = _
  rw [toNat_append_add]
  simp

theorem encodeAReg_toNat (op : BitVec 4) (rd rs : Reg) (ign : BitVec 5) :
    (encodeAReg op rd rs ign).toNat =
      op.toNat * 4096 + rd.bits.toNat * 512 + rs.bits.toNat * 64 + ign.toNat * 2 := by
  show (op ++ rd.bits ++ rs.bits ++ ign ++ 0#1).toNat = _
  simp only [toNat_append_add, BitVec.toNat_ofNat]
  omega

theorem encodeAImm_toNat (op : BitVec 4) (rd : Reg) (imm : BitVec 8) :
    (encodeAImm op rd imm).toNat = op.toNat * 4096 + rd.bits.toNat * 512 + imm.toNat * 2 + 1 := by
  show (op ++ rd.bits ++ imm ++ 1#1).toNat = _
  simp only [toNat_append_add, BitVec.toNat_ofNat]
  omega

theorem encodeS_toNat (rd : Reg) (amount : BitVec 6) (mode : BitVec 2) (imm : BitVec 1) :
    (encodeS rd amount mode imm).toNat =
      8 * 4096 + rd.bits.toNat * 512 + amount.toNat * 8 + mode.toNat * 2 + imm.toNat := by
  show (0x8#4 ++ rd.bits ++ amount ++ mode ++ imm).toNat = _
  simp only [toNat_append_add, BitVec.toNat_ofNat]
  omega

theorem encodeM_toNat (op : BitVec 4) (r b : Reg) (low : BitVec 6) :
    (encodeM op r b low).toNat = op.toNat * 4096 + r.bits.toNat * 512 + b.bits.toNat * 64 + low.toNat := by
  show (op ++ r.bits ++ b.bits ++ low).toNat = _
  simp only [toNat_append_add]
  omega

theorem encodeK_toNat (mode : BitVec 2) (value : BitVec 9) (imm : BitVec 1) :
    (encodeK mode value imm).toNat = 12 * 4096 + mode.toNat * 1024 + value.toNat * 2 + imm.toNat := by
  show (0xC#4 ++ mode ++ value ++ imm).toNat = _
  simp only [toNat_append_add, BitVec.toNat_ofNat]
  omega

theorem encodeB_toNat (c : Cond) (off : BitVec 9) :
    (encodeB c off).toNat = 14 * 4096 + c.bits.toNat * 512 + off.toNat := by
  show (0xE#4 ++ c.bits ++ off).toNat = _
  simp only [toNat_append_add, BitVec.toNat_ofNat]
  omega

theorem encodeF_toNat (mode : BitVec 1) (off : BitVec 11) :
    (encodeF mode off).toNat = 15 * 4096 + mode.toNat * 2048 + off.toNat := by
  show (0xF#4 ++ mode ++ off).toNat = _
  simp only [toNat_append_add, BitVec.toNat_ofNat]
  omega

/-! ### The bits of each format -/

theorem encodeN_bit (ign : BitVec 12) (i : Nat) :
    (encodeN ign).getLsbD i = if i < 12 then ign.getLsbD i else (0x0#4).getLsbD (i - 12) := by
  show (0x0#4 ++ ign).getLsbD i = _
  simp only [BitVec.getLsbD_append]

theorem encodeAReg_bit (op : BitVec 4) (rd rs : Reg) (ign : BitVec 5) (i : Nat) :
    (encodeAReg op rd rs ign).getLsbD i =
      if i < 1 then (0#1).getLsbD i else if i < 6 then ign.getLsbD (i - 1)
      else if i < 9 then rs.bits.getLsbD (i - 6) else if i < 12 then rd.bits.getLsbD (i - 9)
      else op.getLsbD (i - 12) := by
  show (op ++ rd.bits ++ rs.bits ++ ign ++ 0#1).getLsbD i = _
  simp only [BitVec.getLsbD_append]
  split_ifs <;> first | rfl | omega

theorem encodeAImm_bit (op : BitVec 4) (rd : Reg) (imm : BitVec 8) (i : Nat) :
    (encodeAImm op rd imm).getLsbD i =
      if i < 1 then (1#1).getLsbD i else if i < 9 then imm.getLsbD (i - 1)
      else if i < 12 then rd.bits.getLsbD (i - 9) else op.getLsbD (i - 12) := by
  show (op ++ rd.bits ++ imm ++ 1#1).getLsbD i = _
  simp only [BitVec.getLsbD_append]
  split_ifs <;> first | rfl | omega

theorem encodeS_bit (rd : Reg) (amount : BitVec 6) (mode : BitVec 2) (imm : BitVec 1) (i : Nat) :
    (encodeS rd amount mode imm).getLsbD i =
      if i < 1 then imm.getLsbD i else if i < 3 then mode.getLsbD (i - 1)
      else if i < 9 then amount.getLsbD (i - 3) else if i < 12 then rd.bits.getLsbD (i - 9)
      else (0x8#4).getLsbD (i - 12) := by
  show (0x8#4 ++ rd.bits ++ amount ++ mode ++ imm).getLsbD i = _
  simp only [BitVec.getLsbD_append]
  split_ifs <;> first | rfl | omega

theorem encodeM_bit (op : BitVec 4) (r b : Reg) (low : BitVec 6) (i : Nat) :
    (encodeM op r b low).getLsbD i =
      if i < 6 then low.getLsbD i else if i < 9 then b.bits.getLsbD (i - 6)
      else if i < 12 then r.bits.getLsbD (i - 9) else op.getLsbD (i - 12) := by
  show (op ++ r.bits ++ b.bits ++ low).getLsbD i = _
  simp only [BitVec.getLsbD_append]
  split_ifs <;> first | rfl | omega

theorem encodeK_bit (mode : BitVec 2) (value : BitVec 9) (imm : BitVec 1) (i : Nat) :
    (encodeK mode value imm).getLsbD i =
      if i < 1 then imm.getLsbD i else if i < 10 then value.getLsbD (i - 1)
      else if i < 12 then mode.getLsbD (i - 10) else (0xC#4).getLsbD (i - 12) := by
  show (0xC#4 ++ mode ++ value ++ imm).getLsbD i = _
  simp only [BitVec.getLsbD_append]
  split_ifs <;> first | rfl | omega

theorem encodeB_bit (c : Cond) (off : BitVec 9) (i : Nat) :
    (encodeB c off).getLsbD i =
      if i < 9 then off.getLsbD i else if i < 12 then c.bits.getLsbD (i - 9) else (0xE#4).getLsbD (i - 12) := by
  show (0xE#4 ++ c.bits ++ off).getLsbD i = _
  simp only [BitVec.getLsbD_append]
  split_ifs <;> first | rfl | omega

theorem encodeF_bit (mode : BitVec 1) (off : BitVec 11) (i : Nat) :
    (encodeF mode off).getLsbD i =
      if i < 11 then off.getLsbD i else if i < 12 then mode.getLsbD (i - 11) else (0xF#4).getLsbD (i - 12) := by
  show (0xF#4 ++ mode ++ off).getLsbD i = _
  simp only [BitVec.getLsbD_append]
  split_ifs <;> first | rfl | omega

/-! ### The masks of the opcode table -/

/-- Two words with the same sixteen bits under a mask are the same under it: the mask test is bit by bit. -/
theorem matchesRow_iff (w : Word) (k : Nat) (mask value : Word) (h : opcodeTable[k]? = some (mask, value)) :
    matchesRow w k = true ↔ ∀ i, i < 16 → (w.getLsbD i && mask.getLsbD i) = value.getLsbD i := by
  unfold matchesRow
  rw [h]
  simp only [beq_iff_eq]
  constructor
  · intro heq i _
    rw [← heq, BitVec.getLsbD_and]
  · intro hall
    apply BitVec.eq_of_getLsbD_eq
    intro i hi
    rw [BitVec.getLsbD_and]
    exact hall i hi

end Sys2Proof
end

