-- ==== Sys2Proof/Laws/Exec.lean ====
section
/-! SUPPORT. What the execute phase can do, said once: every next state of `exec` is one of ten effects. Frames and
invariants follow from these cases, with no meaning unfolded. -/

namespace Sys2Proof.Machine

/-- A zero-extended field keeps its value. -/
theorem setWidth16_toNat {n : Nat} (hn : n ≤ 16) (f : BitVec n) : (f.setWidth 16).toNat = f.toNat := by
  rw [BitVec.toNat_setWidth, Nat.mod_eq_of_lt]
  exact lt_of_lt_of_le f.isLt (Nat.pow_le_pow_right (by omega) hn)

/-- The bits of an immediate operand: the immediate's own, and zero above them (R61). -/
theorem immOperand_getLsbD (imm : BitVec 8) (k : Nat) : (immOperand imm).getLsbD k = imm.getLsbD k := by
  unfold immOperand
  rw [BitVec.getLsbD_setWidth]
  by_cases h : k < 16
  · simp [h]
  · rw [BitVec.getLsbD_of_ge imm k (by omega), Bool.and_false]

theorem immOperand_toNat (imm : BitVec 8) : (immOperand imm).toNat = imm.toNat := setWidth16_toNat (by omega) imm

theorem immOperand_ne_zero {imm : BitVec 8} (h : imm ≠ 0) : immOperand imm ≠ 0 := by
  intro h0
  apply h
  apply BitVec.eq_of_toNat_eq
  rw [← immOperand_toNat, h0]
  rfl

/-- The effects of the execute phase of `i` begun in `s`, each with what guards it. -/
inductive ExecEffect (i : Instr) (s : State) : State → Prop
  /-- A fault is taken, by the table of R121. -/
  | trap (cause info) : faultCondition i s cause info → ExecEffect i s (raiseFault ⟨cause, info⟩ (encode i) s)
  | halt (ign) : i = .hlt ign → ExecEffect i s s.halt
  /-- One destination register is written (ALU, shifts, MOV, LD). -/
  | reg (rd v) : rd ∈ i.writes → (∀ ra rb ign, i ≠ .cmp ra rb ign) → ExecEffect i s (s.setReg rd v)
  | store (rs rb off) : i = .st rs rb off → isProtected (effectiveAddress s rb off) = false →
      ExecEffect i s (s.writeMem (effectiveAddress s rb off) (s.reg rs))
  /-- PUSH, either form. -/
  | push (v) : (∃ idx ign, i = .pushReg idx ign) ∨ (∃ val ign, i = .pushImm val ign) →
      0xF000 ≤ (s.reg .r0).toNat → ExecEffect i s ((s.writeMem (s.reg .r0) v).setReg .r0 (s.reg .r0 - 1))
  | pop (idx ign) : i = .pop idx ign → idx.toNat ≤ 7 → s.reg .r0 ≠ 0xFFFF →
      ExecEffect i s ((s.setReg .r0 (s.reg .r0 + 1)).setReg (Reg.ofBits (idx.setWidth 3)) (s.readMem (s.reg .r0 + 1)))
  | cmp (ra rb ign) : i = .cmp ra rb ign → ExecEffect i s (s.setFlags (compareFlags (s.reg ra) (s.reg rb)))
  | br (c off) : i = .br c off → ExecEffect i s (if condHolds s.flags c then s.setPc (branchTarget s off) else s)
  | call (off) : i = .call off → 0xF000 ≤ (s.reg .r0).toNat →
      ExecEffect i s (((s.writeMem (s.reg .r0) s.pc).setReg .r0 (s.reg .r0 - 1)).setPc (callTarget s off))
  | ret (ign) : i = .ret ign → s.reg .r0 ≠ 0xFFFF →
      ExecEffect i s ((s.setReg .r0 (s.reg .r0 + 1)).setPc (s.readMem (s.reg .r0 + 1)))

theorem shiftByReg_effect {f : Word → Nat → Word} {i : Instr} {rd : Reg} {idx : BitVec 6} {s t : State}
    (hi : i = .shlReg rd idx ∨ i = .shrReg rd idx ∨ i = .sarReg rd idx ∨ i = .rorReg rd idx)
    (h : complete (encode i) s (shiftByReg f rd idx s) = .next t) : ExecEffect i s t := by
  by_cases hx : idx.toNat ≤ 7
  · rw [shiftByReg_ok hx] at h
    cases h
    refine .reg _ _ ?_ ?_
    · rcases hi with rfl | rfl | rfl | rfl <;> simp [Instr.writes]
    · rcases hi with rfl | rfl | rfl | rfl <;> simp
  · rw [shiftByReg_error (by omega)] at h
    cases h
    exact .trap _ _ (.inl ⟨rd, idx, hi, by omega, setWidth16_toNat (by omega) _⟩)

/-- The inversion lemma of `exec`. -/
theorem exec_effect {i : Instr} {s t : State} (h : exec i s = .next t) : ExecEffect i s t := by
  cases i with
  | hlt ign => cases h; exact .halt ign rfl
  | divReg rd rs ign =>
    by_cases hb : s.reg rs = 0
    · simp only [exec, execDivReg, regOperand, hb, divide_error, complete_error] at h
      cases h
      exact .trap _ _ ⟨rfl, .inl ⟨rd, rs, ign, rfl, hb⟩⟩
    · simp only [exec, execDivReg] at h
      rw [divide_ok (b := regOperand s rs) hb] at h
      cases h
      exact .reg _ _ (by simp [Instr.writes]) (by simp)
  | divImm rd imm =>
    by_cases hb : imm = 0
    · subst hb
      have e : exec (.divImm rd 0) s = complete (encode (.divImm rd 0)) s (.error ⟨.divideByZero, 0⟩) := rfl
      rw [e] at h
      cases h
      exact .trap _ _ ⟨rfl, .inr ⟨rd, rfl⟩⟩
    · simp only [exec, execDivImm] at h
      rw [divide_ok (immOperand_ne_zero hb)] at h
      cases h
      exact .reg _ _ (by simp [Instr.writes]) (by simp)
  | shlReg rd idx => exact shiftByReg_effect (rd := rd) (idx := idx) (by simp) h
  | shrReg rd idx => exact shiftByReg_effect (rd := rd) (idx := idx) (by simp) h
  | sarReg rd idx => exact shiftByReg_effect (rd := rd) (idx := idx) (by simp) h
  | rorReg rd idx => exact shiftByReg_effect (rd := rd) (idx := idx) (by simp) h
  | ld rd rb off =>
    cases hp : isProtected (effectiveAddress s rb off) with
    | true =>
      simp only [exec, execLd, dataAddress_error hp, Except.map, complete_error] at h
      cases h
      obtain ⟨h1, h2⟩ := (isProtected_iff _).mp hp
      exact .trap _ _ ⟨h1, h2, rd, rb, off, .inl rfl, rfl⟩
    | false =>
      simp only [exec, execLd, dataAddress_ok hp, Except.map, complete_ok] at h
      cases h
      exact .reg _ _ (by simp [Instr.writes]) (by simp)
  | st rd rb off =>
    cases hp : isProtected (effectiveAddress s rb off) with
    | true =>
      simp only [exec, execSt, dataAddress_error hp, Except.map, complete_error] at h
      cases h
      obtain ⟨h1, h2⟩ := (isProtected_iff _).mp hp
      exact .trap _ _ ⟨h1, h2, rd, rb, off, .inr rfl, rfl⟩
    | false =>
      simp only [exec, execSt, dataAddress_ok hp, Except.map, complete_ok] at h
      cases h
      exact .store _ _ _ rfl hp
  | pushReg idx ign =>
    by_cases hx : idx.toNat ≤ 7
    · simp only [exec, execPushReg, wideRegIndex_ok hx, Except.bind] at h
      rcases push_cases (s.reg (Reg.ofBits (idx.setWidth 3))) s with ⟨hs, e⟩ | ⟨hs, e⟩ <;> rw [e] at h <;> cases h
      · exact .trap _ _ ⟨rfl, hs, .inl ⟨idx, ign, rfl, hx⟩⟩
      · exact .push _ (.inl ⟨idx, ign, rfl⟩) hs
    · simp only [exec, execPushReg, wideRegIndex_error (by omega : 7 < idx.toNat), Except.bind, complete_error] at h
      cases h
      exact .trap _ _ (.inr ⟨idx, ign, .inl rfl, by omega, setWidth16_toNat (by omega) _⟩)
  | pop idx ign =>
    by_cases hx : idx.toNat ≤ 7
    · simp only [exec, execPop, wideRegIndex_ok hx, Except.bind] at h
      rcases popWord_cases s with ⟨hs, e⟩ | ⟨hs, e⟩ <;> rw [e] at h <;> cases h
      · exact .trap _ _ ⟨hs.symm, rfl, .inl ⟨idx, ign, rfl, hx⟩⟩
      · exact .pop idx ign rfl hx hs
    · simp only [exec, execPop, wideRegIndex_error (by omega : 7 < idx.toNat), Except.bind, complete_error] at h
      cases h
      exact .trap _ _ (.inr ⟨idx, ign, .inr rfl, by omega, setWidth16_toNat (by omega) _⟩)
  | pushImm val ign =>
    simp only [exec, execPushImm] at h
    rcases push_cases (val9Operand val) s with ⟨hs, e⟩ | ⟨hs, e⟩ <;> rw [e] at h <;> cases h
    · exact .trap _ _ ⟨rfl, hs, .inr (.inl ⟨val, ign, rfl⟩)⟩
    · exact .push _ (.inr ⟨val, ign, rfl⟩) hs
  | stackReserved ign => cases h; exact .trap _ _ ⟨rfl, ign, rfl⟩
  | cmp ra rb ign => cases h; exact .cmp ra rb ign rfl
  | br c off => cases h; exact .br c off rfl
  | call off =>
    simp only [exec, execCall] at h
    rcases push_cases s.pc s with ⟨hs, e⟩ | ⟨hs, e⟩ <;> rw [e] at h <;> cases h
    · exact .trap _ _ ⟨rfl, hs, .inr (.inr ⟨off, rfl⟩)⟩
    · exact .call off rfl hs
  | ret ign =>
    simp only [exec, execRet] at h
    rcases popWord_cases s with ⟨hs, e⟩ | ⟨hs, e⟩ <;> rw [e] at h <;> cases h
    · exact .trap _ _ ⟨hs.symm, rfl, .inr ⟨ign, rfl⟩⟩
    · exact .ret ign rfl hs
  | _ => cases h; exact .reg _ _ (by simp [Instr.writes]) (by simp)

/-- The execute phase always ends in a next state when the shared end of it does. -/
theorem complete_total (w : Word) (s : State) (r : Except Trap State) : ∃ t, complete w s r = .next t := by
  cases r <;> exact ⟨_, rfl⟩

end Sys2Proof.Machine
end

