-- ==== Sys2Proof/Laws/PerInstr.lean ====
section
/-! SUPPORT. Families of facts about instructions as syntax, one lemma for each constructor of Instr. -/

namespace Sys2Proof.Laws.RowMatch

open Sys2Proof Sys2Proof.Machine

/-- The word the encoder gives an instruction fits the mask and match of its row of spec/opcode_table.json. -/
def Statement (i : Instr) : Prop := matchesRow (encode i) i.row = true

/-- What is left of a row's mask test once its sixteen bits are written out. -/
theorem of_bits {w : Word} {k : Nat} {mask value : Word} (hk : opcodeTable[k]? = some (mask, value))
    (h : ∀ i, i < 16 → (w.getLsbD i && mask.getLsbD i) = value.getLsbD i) : matchesRow w k = true :=
  (matchesRow_iff w k mask value hk).mpr h

theorem hlt (ign : BitVec 12) : Statement (.hlt ign) := by
  refine of_bits (k := 0) rfl fun i hi => ?_
  rw [encode, encodeN_bit]
  interval_cases i <;> simp

theorem addReg (rd rs : Reg) (ign : BitVec 5) : Statement (.addReg rd rs ign) := by
  refine of_bits (k := 1) rfl fun i hi => ?_
  rw [encode, encodeAReg_bit]
  interval_cases i <;> simp

theorem addImm (rd : Reg) (imm : BitVec 8) : Statement (.addImm rd imm) := by
  refine of_bits (k := 2) rfl fun i hi => ?_
  rw [encode, encodeAImm_bit]
  interval_cases i <;> simp

theorem subReg (rd rs : Reg) (ign : BitVec 5) : Statement (.subReg rd rs ign) := by
  refine of_bits (k := 3) rfl fun i hi => ?_
  rw [encode, encodeAReg_bit]
  interval_cases i <;> simp

theorem subImm (rd : Reg) (imm : BitVec 8) : Statement (.subImm rd imm) := by
  refine of_bits (k := 4) rfl fun i hi => ?_
  rw [encode, encodeAImm_bit]
  interval_cases i <;> simp

theorem mulReg (rd rs : Reg) (ign : BitVec 5) : Statement (.mulReg rd rs ign) := by
  refine of_bits (k := 5) rfl fun i hi => ?_
  rw [encode, encodeAReg_bit]
  interval_cases i <;> simp

theorem mulImm (rd : Reg) (imm : BitVec 8) : Statement (.mulImm rd imm) := by
  refine of_bits (k := 6) rfl fun i hi => ?_
  rw [encode, encodeAImm_bit]
  interval_cases i <;> simp

theorem divReg (rd rs : Reg) (ign : BitVec 5) : Statement (.divReg rd rs ign) := by
  refine of_bits (k := 7) rfl fun i hi => ?_
  rw [encode, encodeAReg_bit]
  interval_cases i <;> simp

theorem divImm (rd : Reg) (imm : BitVec 8) : Statement (.divImm rd imm) := by
  refine of_bits (k := 8) rfl fun i hi => ?_
  rw [encode, encodeAImm_bit]
  interval_cases i <;> simp

theorem andReg (rd rs : Reg) (ign : BitVec 5) : Statement (.andReg rd rs ign) := by
  refine of_bits (k := 9) rfl fun i hi => ?_
  rw [encode, encodeAReg_bit]
  interval_cases i <;> simp

theorem andImm (rd : Reg) (imm : BitVec 8) : Statement (.andImm rd imm) := by
  refine of_bits (k := 10) rfl fun i hi => ?_
  rw [encode, encodeAImm_bit]
  interval_cases i <;> simp

theorem orReg (rd rs : Reg) (ign : BitVec 5) : Statement (.orReg rd rs ign) := by
  refine of_bits (k := 11) rfl fun i hi => ?_
  rw [encode, encodeAReg_bit]
  interval_cases i <;> simp

theorem orImm (rd : Reg) (imm : BitVec 8) : Statement (.orImm rd imm) := by
  refine of_bits (k := 12) rfl fun i hi => ?_
  rw [encode, encodeAImm_bit]
  interval_cases i <;> simp

theorem xorReg (rd rs : Reg) (ign : BitVec 5) : Statement (.xorReg rd rs ign) := by
  refine of_bits (k := 13) rfl fun i hi => ?_
  rw [encode, encodeAReg_bit]
  interval_cases i <;> simp

theorem xorImm (rd : Reg) (imm : BitVec 8) : Statement (.xorImm rd imm) := by
  refine of_bits (k := 14) rfl fun i hi => ?_
  rw [encode, encodeAImm_bit]
  interval_cases i <;> simp

theorem shlReg (rd : Reg) (idx : BitVec 6) : Statement (.shlReg rd idx) := by
  refine of_bits (k := 15) rfl fun i hi => ?_
  rw [encode, encodeS_bit]
  interval_cases i <;> simp

theorem shlImm (rd : Reg) (amt : BitVec 6) : Statement (.shlImm rd amt) := by
  refine of_bits (k := 16) rfl fun i hi => ?_
  rw [encode, encodeS_bit]
  interval_cases i <;> simp

theorem shrReg (rd : Reg) (idx : BitVec 6) : Statement (.shrReg rd idx) := by
  refine of_bits (k := 17) rfl fun i hi => ?_
  rw [encode, encodeS_bit]
  interval_cases i <;> simp

theorem shrImm (rd : Reg) (amt : BitVec 6) : Statement (.shrImm rd amt) := by
  refine of_bits (k := 18) rfl fun i hi => ?_
  rw [encode, encodeS_bit]
  interval_cases i <;> simp

theorem sarReg (rd : Reg) (idx : BitVec 6) : Statement (.sarReg rd idx) := by
  refine of_bits (k := 19) rfl fun i hi => ?_
  rw [encode, encodeS_bit]
  interval_cases i <;> simp

theorem sarImm (rd : Reg) (amt : BitVec 6) : Statement (.sarImm rd amt) := by
  refine of_bits (k := 20) rfl fun i hi => ?_
  rw [encode, encodeS_bit]
  interval_cases i <;> simp

theorem rorReg (rd : Reg) (idx : BitVec 6) : Statement (.rorReg rd idx) := by
  refine of_bits (k := 21) rfl fun i hi => ?_
  rw [encode, encodeS_bit]
  interval_cases i <;> simp

theorem rorImm (rd : Reg) (amt : BitVec 6) : Statement (.rorImm rd amt) := by
  refine of_bits (k := 22) rfl fun i hi => ?_
  rw [encode, encodeS_bit]
  interval_cases i <;> simp

theorem movReg (rd rs : Reg) (ign : BitVec 5) : Statement (.movReg rd rs ign) := by
  refine of_bits (k := 23) rfl fun i hi => ?_
  rw [encode, encodeAReg_bit]
  interval_cases i <;> simp

theorem movImm (rd : Reg) (imm : BitVec 8) : Statement (.movImm rd imm) := by
  refine of_bits (k := 24) rfl fun i hi => ?_
  rw [encode, encodeAImm_bit]
  interval_cases i <;> simp

theorem ld (rd rb : Reg) (off : BitVec 6) : Statement (.ld rd rb off) := by
  refine of_bits (k := 25) rfl fun i hi => ?_
  rw [encode, encodeM_bit]
  interval_cases i <;> simp

theorem st (rs rb : Reg) (off : BitVec 6) : Statement (.st rs rb off) := by
  refine of_bits (k := 26) rfl fun i hi => ?_
  rw [encode, encodeM_bit]
  interval_cases i <;> simp

theorem pushReg (idx : BitVec 9) (ign : BitVec 1) : Statement (.pushReg idx ign) := by
  refine of_bits (k := 27) rfl fun i hi => ?_
  rw [encode, encodeK_bit]
  interval_cases i <;> simp

theorem pop (idx : BitVec 9) (ign : BitVec 1) : Statement (.pop idx ign) := by
  refine of_bits (k := 28) rfl fun i hi => ?_
  rw [encode, encodeK_bit]
  interval_cases i <;> simp

theorem pushImm (val : BitVec 9) (ign : BitVec 1) : Statement (.pushImm val ign) := by
  refine of_bits (k := 29) rfl fun i hi => ?_
  rw [encode, encodeK_bit]
  interval_cases i <;> simp

theorem stackReserved (ign : BitVec 10) : Statement (.stackReserved ign) := by
  refine of_bits (k := 30) rfl fun i hi => ?_
  show ((0xC#4 ++ 3#2 ++ ign).getLsbD i && _) = _
  simp only [BitVec.getLsbD_append]
  interval_cases i <;> simp

theorem cmp (ra rb : Reg) (ign : BitVec 6) : Statement (.cmp ra rb ign) := by
  refine of_bits (k := 31) rfl fun i hi => ?_
  rw [encode, encodeM_bit]
  interval_cases i <;> simp

theorem br (c : Cond) (off : BitVec 9) : Statement (.br c off) := by
  refine of_bits (k := 32) rfl fun i hi => ?_
  rw [encode, encodeB_bit]
  interval_cases i <;> simp

theorem call (off : BitVec 11) : Statement (.call off) := by
  refine of_bits (k := 33) rfl fun i hi => ?_
  rw [encode, encodeF_bit]
  interval_cases i <;> simp

theorem ret (ign : BitVec 11) : Statement (.ret ign) := by
  refine of_bits (k := 34) rfl fun i hi => ?_
  rw [encode, encodeF_bit]
  interval_cases i <;> simp

end Sys2Proof.Laws.RowMatch
end

