-- ==== Sys2Proof/Tests/Slice0.lean ====
section
/-! SUPPORT. Tests: each check of well-formedness refusing an ill-formed term; one written-out word for each
constructor; single steps with results from spec/95_test_vectors.md (or worked out from the rule named); and for each
statement with hypotheses a witness that they can be met, one for each of its clauses. -/

namespace Sys2Proof.Tests

open Machine

/-! ### Helpers -/

/-- The next state of an outcome. -/
def after : Host.Outcome State Fault Refusal → State
  | .next t => t
  | .fault _ => State.reset
  | .refused _ => State.reset

/-- The reset state with the pc, some registers and some memory words set. -/
def start (pc : Word) (regs : List (Reg × Word)) (cells : List (Word × Word)) : State :=
  cells.foldl (fun s c => s.writeMem c.1 c.2) (regs.foldl (fun s c => s.setReg c.1 c.2) (State.reset.setPc pc))

/-- The state after one step of the word `w`, placed at the pc of `s`. -/
def run1 (w : Nat) (s : State) : State := after (step (s.withFetchWord 16 w))

/-! ### Well-formedness refuses each ill-formed shape -/

theorem test_wellFormed_hlt : (Instr.hlt 1).wellFormed = false := by decide
theorem test_wellFormed_addReg : (Instr.addReg .r1 .r2 1).wellFormed = false := by decide
theorem test_wellFormed_subReg : (Instr.subReg .r1 .r2 2).wellFormed = false := by decide
theorem test_wellFormed_mulReg : (Instr.mulReg .r1 .r2 4).wellFormed = false := by decide
theorem test_wellFormed_divReg : (Instr.divReg .r1 .r2 8).wellFormed = false := by decide
theorem test_wellFormed_andReg : (Instr.andReg .r1 .r2 16).wellFormed = false := by decide
theorem test_wellFormed_orReg : (Instr.orReg .r1 .r2 31).wellFormed = false := by decide
theorem test_wellFormed_xorReg : (Instr.xorReg .r1 .r2 1).wellFormed = false := by decide
theorem test_wellFormed_movReg : (Instr.movReg .r1 .r2 1).wellFormed = false := by decide
theorem test_wellFormed_shlReg : (Instr.shlReg .r1 8).wellFormed = false := by decide
theorem test_wellFormed_shrReg : (Instr.shrReg .r1 8).wellFormed = false := by decide
theorem test_wellFormed_sarReg : (Instr.sarReg .r1 8).wellFormed = false := by decide
theorem test_wellFormed_rorReg : (Instr.rorReg .r1 63).wellFormed = false := by decide
theorem test_wellFormed_pushReg_index : (Instr.pushReg 8 0).wellFormed = false := by decide
theorem test_wellFormed_pushReg_ignored : (Instr.pushReg 7 1).wellFormed = false := by decide
theorem test_wellFormed_pop_index : (Instr.pop 8 0).wellFormed = false := by decide
theorem test_wellFormed_pop_ignored : (Instr.pop 7 1).wellFormed = false := by decide
theorem test_wellFormed_pushImm : (Instr.pushImm 511 0).wellFormed = false := by decide
theorem test_wellFormed_stackReserved : (Instr.stackReserved 0).wellFormed = false := by decide
theorem test_wellFormed_cmp : (Instr.cmp .r1 .r2 63).wellFormed = false := by decide
theorem test_wellFormed_br : (Instr.br .reserved 0).wellFormed = false := by decide
theorem test_wellFormed_ret : (Instr.ret 1).wellFormed = false := by decide

/-- Every shape has a well-formed term. -/
theorem test_wellFormed_accepts :
    [Instr.hlt 0, .addReg .r1 .r2 0, .addImm .r1 255, .shlReg .r1 7, .shlImm .r1 63, .movReg .r1 .r2 0, .movImm .r1 0,
     .ld .r1 .r2 63, .st .r1 .r2 63, .pushReg 7 0, .pop 7 0, .pushImm 511 1, .cmp .r1 .r2 0, .br .al 511, .call 2047,
     .ret 0].all Instr.wellFormed = true := by
  decide

/-! ### Decoding: words written out field by field from 30_encoding.md R52 to R60 -/

theorem test_decode_hlt : decode 0b0000_000000000000#16 = .hlt 0 := by decide
theorem test_decode_addReg : decode 0b0001_001_010_00000_0#16 = .addReg .r1 .r2 0 := by decide
theorem test_decode_addImm : decode 0b0001_001_11111111_1#16 = .addImm .r1 255 := by decide
theorem test_decode_subReg : decode 0b0010_100_011_00000_0#16 = .subReg .r4 .r3 0 := by decide
theorem test_decode_subImm : decode 0b0010_001_00000001_1#16 = .subImm .r1 1 := by decide
theorem test_decode_mulReg : decode 0b0011_101_110_00000_0#16 = .mulReg .r5 .r6 0 := by decide
theorem test_decode_mulImm : decode 0b0011_001_10000000_1#16 = .mulImm .r1 128 := by decide
theorem test_decode_divReg : decode 0b0100_110_001_00000_0#16 = .divReg .r6 .r1 0 := by decide
theorem test_decode_divImm : decode 0b0100_001_00000010_1#16 = .divImm .r1 2 := by decide
theorem test_decode_andReg : decode 0b0101_000_111_00000_0#16 = .andReg .r0 .r7 0 := by decide
theorem test_decode_andImm : decode 0b0101_001_00001111_1#16 = .andImm .r1 15 := by decide
theorem test_decode_orReg : decode 0b0110_111_000_00000_0#16 = .orReg .r7 .r0 0 := by decide
theorem test_decode_orImm : decode 0b0110_001_10000000_1#16 = .orImm .r1 128 := by decide
theorem test_decode_xorReg : decode 0b0111_001_010_10101_0#16 = .xorReg .r1 .r2 21 := by decide
theorem test_decode_xorImm : decode 0b0111_001_11111111_1#16 = .xorImm .r1 255 := by decide
theorem test_decode_shlReg : decode 0b1000_001_000010_00_0#16 = .shlReg .r1 2 := by decide
theorem test_decode_shlImm : decode 0b1000_001_001111_00_1#16 = .shlImm .r1 15 := by decide
theorem test_decode_shrReg : decode 0b1000_010_000001_01_0#16 = .shrReg .r2 1 := by decide
theorem test_decode_shrImm : decode 0b1000_001_000100_01_1#16 = .shrImm .r1 4 := by decide
theorem test_decode_sarReg : decode 0b1000_011_000010_10_0#16 = .sarReg .r3 2 := by decide
theorem test_decode_sarImm : decode 0b1000_001_010000_10_1#16 = .sarImm .r1 16 := by decide
theorem test_decode_rorReg : decode 0b1000_001_111111_11_0#16 = .rorReg .r1 63 := by decide
theorem test_decode_rorImm : decode 0b1000_001_111111_11_1#16 = .rorImm .r1 63 := by decide
theorem test_decode_movReg : decode 0b1001_000_011_00000_0#16 = .movReg .r0 .r3 0 := by decide
theorem test_decode_movImm : decode 0b1001_111_11111111_1#16 = .movImm .r7 255 := by decide
theorem test_decode_ld : decode 0b1010_001_010_100000#16 = .ld .r1 .r2 (-32) := by decide
theorem test_decode_st : decode 0b1011_011_100_011111#16 = .st .r3 .r4 31 := by decide
theorem test_decode_pushReg : decode 0b1100_00_000000001_0#16 = .pushReg 1 0 := by decide
theorem test_decode_pop : decode 0b1100_01_000000111_0#16 = .pop 7 0 := by decide
theorem test_decode_pushImm : decode 0b1100_10_111111111_1#16 = .pushImm 511 1 := by decide
theorem test_decode_stackReserved : decode 0b1100_11_0000000000#16 = .stackReserved 0 := by decide
theorem test_decode_cmp : decode 0b1101_001_010_000000#16 = .cmp .r1 .r2 0 := by decide
theorem test_decode_br : decode 0b1110_001_111111101#16 = .br .ne (-3) := by decide
theorem test_decode_call : decode 0b1111_0_11111111111#16 = .call (-1) := by decide
theorem test_decode_ret : decode 0b1111_1_00000000000#16 = .ret 0 := by decide

theorem test_decodeTableWord : decodeTableWord 16 0xD280 = some (.cmp .r1 .r2 0) := by decide

/-- More bits than one word is no instruction. -/
theorem test_decodeTableWord_too_long : decodeTableBits 32 0xD280 = .error .longerThanOneWord := by rfl

theorem test_decodeWords_empty : decodeWords [] = .error .noWord := by rfl

/-! ### Single steps (spec/95_test_vectors.md, part 2) -/

theorem test_hlt_stops : (run1 0x0FFF (start 0x1234 [] [])).running = false := by decide
theorem test_hlt_pc_wraps : (run1 0x0000 (start 0xFFFF [] [])).pc = 0x0000 := by decide

theorem test_addReg_wraps : (run1 0x1280 (start 0 [(.r1, 0xFFFF), (.r2, 1)] [])).reg .r1 = 0x0000 := by decide
theorem test_addReg_doubles : (run1 0x16C0 (start 0 [(.r3, 0x4001)] [])).reg .r3 = 0x8002 := by decide
theorem test_addImm_zero_extends : (run1 0x13FF (start 0 [(.r1, 0xFF01)] [])).reg .r1 = 0x0000 := by decide
theorem test_subReg_wraps : (run1 0x2280 (start 0 [(.r1, 3), (.r2, 5)] [])).reg .r1 = 0xFFFE := by decide
theorem test_subImm_wraps : (run1 0x2203 (start 0 [] [])).reg .r1 = 0xFFFF := by decide
theorem test_subImm_writes_no_flag : (run1 0x2203 (start 0 [(.r1, 1)] [])).flags.z = false := by decide
theorem test_mulReg_low_half : (run1 0x3280 (start 0 [(.r1, 0x1234), (.r2, 0x5678)] [])).reg .r1 = 0x0060 := by decide
theorem test_mulImm : (run1 0x33FF (start 0 [(.r1, 0x0101)] [])).reg .r1 = 0xFFFF := by decide
theorem test_divReg_unsigned : (run1 0x4280 (start 0 [(.r1, 0xFFFE), (.r2, 2)] [])).reg .r1 = 0x7FFF := by decide
theorem test_divReg_zero :
    (run1 0x4280 (start 0x20 [(.r1, 100)] [])).fault = some ⟨.divideByZero, 0x0020, 0x4280, 0⟩ := by
  decide
theorem test_divImm : (run1 0x43FF (start 0 [(.r1, 0xFFFF)] [])).reg .r1 = 0x0101 := by decide
theorem test_divImm_zero_keeps_rd : (run1 0x4201 (start 0 [(.r1, 0x0064)] [])).reg .r1 = 0x0064 := by decide
theorem test_andReg : (run1 0x5280 (start 0 [(.r1, 0xF0F0), (.r2, 0xFF00)] [])).reg .r1 = 0xF000 := by decide
theorem test_andImm_zero_extends : (run1 0x53FF (start 0 [(.r1, 0xABCD)] [])).reg .r1 = 0x00CD := by decide
theorem test_orReg : (run1 0x6280 (start 0 [(.r1, 0xF0F0), (.r2, 0x0F0F)] [])).reg .r1 = 0xFFFF := by decide
theorem test_orImm : (run1 0x6301 (start 0 [(.r1, 0x0100)] [])).reg .r1 = 0x0180 := by decide
theorem test_xorReg : (run1 0x7280 (start 0 [(.r1, 0xAAAA), (.r2, 0xFFFF)] [])).reg .r1 = 0x5555 := by decide
theorem test_xorImm : (run1 0x73FF (start 0 [(.r1, 0x00FF)] [])).reg .r1 = 0x0000 := by decide

theorem test_shlReg_own_amount : (run1 0x8208 (start 0 [(.r1, 3)] [])).reg .r1 = 0x0018 := by decide
theorem test_shlReg_index :
    (run1 0x8240 (start 0 [(.r1, 1)] [])).fault = some ⟨.registerIndexOutOfRange, 0, 0x8240, 8⟩ := by
  decide
theorem test_shlImm : (run1 0x8221 (start 0 [(.r1, 0x1234)] [])).reg .r1 = 0x2340 := by decide
theorem test_shlImm_16 : (run1 0x8281 (start 0 [(.r1, 0xFFFF)] [])).reg .r1 = 0x0000 := by decide
theorem test_shrReg_whole_amount : (run1 0x8212 (start 0 [(.r1, 0x8000), (.r2, 0x0100)] [])).reg .r1 = 0 := by decide
theorem test_shrImm : (run1 0x820B (start 0 [(.r1, 0x8001)] [])).reg .r1 = 0x4000 := by decide
theorem test_sarReg : (run1 0x8214 (start 0 [(.r1, 0x8000), (.r2, 0x8000)] [])).reg .r1 = 0xFFFF := by decide
theorem test_sarImm : (run1 0x8225 (start 0 [(.r1, 0xF234)] [])).reg .r1 = 0xFF23 := by decide
theorem test_sarImm_positive : (run1 0x83FD (start 0 [(.r1, 0x7FFF)] [])).reg .r1 = 0x0000 := by decide
theorem test_rorReg : (run1 0x8216 (start 0 [(.r1, 0x1234), (.r2, 0xFFFF)] [])).reg .r1 = 0x2468 := by decide
theorem test_rorReg_index :
    (run1 0x83FE (start 0x10 [(.r1, 1)] [])).fault = some ⟨.registerIndexOutOfRange, 0x10, 0x83FE, 0x3F⟩ := by
  decide
theorem test_rorImm : (run1 0x8227 (start 0 [(.r1, 0x1234)] [])).reg .r1 = 0x4123 := by decide
theorem test_rorImm_63 : (run1 0x83FF (start 0 [(.r1, 0x8001)] [])).reg .r1 = 0x0003 := by decide

theorem test_movReg : (run1 0x9280 (start 0 [(.r2, 0xBEEF)] [])).reg .r1 = 0xBEEF := by decide
theorem test_movImm : (run1 0x9FFF (start 0 [(.r7, 0xFFFF)] [])).reg .r7 = 0x00FF := by decide

theorem test_ld_negative_offset :
    (run1 0xA2A0 (start 0 [(.r2, 0x8020)] [(0x8000, 0x2222)])).reg .r1 = 0x2222 := by
  decide
theorem test_ld_protected :
    (run1 0xA281 (start 0 [(.r2, 0x00FF), (.r1, 0x5555)] [])).fault = some ⟨.protectedAccess, 0, 0xA281, 0x0100⟩ := by
  decide
theorem test_st_wraps : (run1 0xB2A0 (start 0 [(.r1, 0xCAFE), (.r2, 0x0010)] [])).readMem 0xFFF0 = 0xCAFE := by decide
theorem test_st_protected : (run1 0xB2A0 (start 0 [(.r1, 0xCAFE), (.r2, 0x8000)] [])).readMem 0x7FE0 = 0 := by decide

theorem test_pushReg_sp : (run1 0xC000 (start 0 [(.r0, 0xF800)] [])).readMem 0xF800 = 0xF800 := by decide
theorem test_pushReg_overflow :
    (run1 0xC002 (start 9 [(.r0, 0xEFFF)] [])).fault = some ⟨.stackOverflow, 9, 0xC002, 0xEFFF⟩ := by
  decide
theorem test_pushImm : (run1 0xCA59 (start 0 [(.r0, 0xFFF0)] [])).readMem 0xFFF0 = 0x012C := by decide
theorem test_pushImm_sp : (run1 0xC802 (start 0 [] [])).reg .r0 = 0xFFFE := by decide
theorem test_pop : (run1 0xC402 (start 0 [(.r0, 0xEFFF)] [(0xF000, 0x00AA)])).reg .r1 = 0x00AA := by decide
theorem test_pop_r0 : (run1 0xC400 (start 0 [(.r0, 0xFFFE)] [(0xFFFF, 0xF123)])).reg .r0 = 0xF123 := by decide
theorem test_stackReserved : (run1 0xCFFF (start 0 [] [])).fault = some ⟨.unknownOpcode, 0, 0xCFFF, 0xC⟩ := by decide

theorem test_cmp_overflow :
    (run1 0xD280 (start 0 [(.r1, 0x7FFF), (.r2, 0xFFFF)] [])).flags = ⟨false, true, true, true⟩ := by
  decide
theorem test_cmp_borrow : (run1 0xD280 (start 0 [(.r1, 3), (.r2, 5)] [])).flags = ⟨false, true, true, false⟩ := by decide

theorem test_br_wraps : (run1 0xEDFD (start 0x0001 [] [])).pc = 0xFFFF := by decide
theorem test_br_reserved : (run1 0xEFFF (start 0x0300 [] [])).pc = 0x0301 := by decide
theorem test_call : (run1 0xF400 (start 0x0010 [] [])).pc = 0xFC11 := by decide
theorem test_call_over_itself : (run1 0xF003 (start 0xFFFF [] [])).readMem 0xFFFF = 0x0000 := by decide
theorem test_ret : (run1 0xFFFF (start 0x0404 [(.r0, 0xFFFE)] [(0xFFFF, 0x0401)])).pc = 0x0401 := by decide
theorem test_ret_underflow : (run1 0xF800 (start 0 [] [])).fault = some ⟨.stackUnderflow, 0, 0xF800, 0xFFFF⟩ := by decide

/-- The 32 vectors of 47_branch.md R109: which of the eight conditions hold, for (Z, N) = 00, 10, 01, 11. -/
theorem test_conditions :
    [Flags.mk false false false false, ⟨true, false, false, false⟩, ⟨false, true, false, false⟩,
     ⟨true, true, false, false⟩].map (fun f =>
        [Cond.eq, .ne, .gt, .lt, .ge, .le, .al, .reserved].map (condHolds f)) =
      [[false, true, true, false, true, false, true, false], [true, false, false, false, true, true, true, false],
       [false, true, false, true, false, true, true, false], [true, false, false, true, true, true, true, false]] := by
  decide

/-! ### Assembler (vectors V-ASM and scenario 4) -/

/-- The words of a source, or the kind of its error. -/
def asm (source : String) : Except AsmErrorKind (List Word) :=
  match assemble source.toList with
  | .ok ws => .ok ws
  | .error e => .error e.kind

theorem test_asm_scenario1 :
    assemble "MOV r1,#5 ; five\nMOV r2,#3\n\n ADD r1, R2\nhlt".toList = .ok [0x920B, 0x9407, 0x1280, 0x0000] := by
  rfl

theorem test_asm_label_first : asm "x: CALL x" = .ok [0xF7FF] := by rfl

theorem test_asm_label_back : asm "MOV r1,#10\nMOV r2,#0\nloop: SUB r1,#1\nCMP r1,r2\nBR NE,loop\nHLT" =
    .ok [0x9215, 0x9401, 0x2203, 0xD280, 0xE3FD, 0x0000] := by
  rfl

theorem test_asm_memory : asm "LD r1,[r2]\nLD r1,[r2+31]\nLD r1,[r2-32]\nLD r1,[r2+-32]\nST r3,[r4]" =
    .ok [0xA280, 0xA29F, 0xA2A0, 0xA2A0, 0xB700] := by
  rfl

theorem test_asm_stack : asm "PUSH r1\nPUSH #511\nPOP r7\nSAR r3,r2\nRET" = .ok [0xC002, 0xCBFF, 0xC40E, 0x8614, 0xF800] := by
  rfl

theorem test_asm_overflow : asm "HLT\nMOV r1,#300" = .error (.fieldOverflow .imm8) := by rfl
theorem test_asm_shift_overflow : asm "SHL r1,#64" = .error (.fieldOverflow .amount) := by rfl
theorem test_asm_register : asm "MOV r8,#1" = .error .unknownRegister := by rfl
theorem test_asm_mnemonic : asm "JMP x" = .error .unknownMnemonic := by rfl
theorem test_asm_no_label : asm "BR NE,nowhere" = .error .unresolvedLabel := by rfl
theorem test_asm_duplicate : asm "x: HLT\nx: HLT" = .error .duplicateLabel := by rfl
theorem test_asm_condition : asm "x: BR XX,x" = .error .unknownCondition := by rfl
theorem test_asm_bad_label : asm ": HLT" = .error .badLabel := by rfl

/-- Stray separators are skipped (log 13), but a comma directly after the mnemonic is part of it. -/
theorem test_asm_stray_comma : asm "ADD ,r1,r2\nADD r1,,r2,\nHLT ," = .ok [0x1280, 0x1280, 0x0000] := by rfl

theorem test_asm_mnemonic_comma : asm "HLT," = .error .unknownMnemonic := by rfl

/-- A diagnostic names mnemonic, operand and line, the wrong number of operands too (R70). -/
theorem test_asm_diagnostic :
    assemble "HLT\nAdd r1".toList = .error ⟨.badOperands, some "Add".toList, "r1".toList, 2⟩ := by
  rfl

/-! ### Loading -/

theorem test_load : (boot [0x920B, 0x0000]).map (fun s => (s.readMem 0, s.pc)) = .ok (0x920B, 0) := by rfl

theorem test_file_odd : fileWords .little [0x0B, 0x92, 0x00] = .error .oddByteCount := by rfl

theorem test_file_orders :
    (fileWords .little [0x0B, 0x92], fileWords .big [0x92, 0x0B]) = (.ok [0x920B], .ok [0x920B]) := by
  rfl

theorem test_video_word : videoWord (run1 0xB280 (start 0 [(.r1, 0xF800), (.r2, 0xE000)] [])) ⟨0, by decide⟩ = 0xF800 := by decide

/-! ### Witnesses: the hypotheses of the statements can be met -/

theorem witness_halt : State.reset.running = true ∧ (State.reset.readMem State.reset.pc).extractLsb' 12 4 = 0x0 := by
  decide

theorem witness_bitwise_words :
    (0x5280#16).extractLsb' 12 4 = 0x5 ∧ (0x6280#16).extractLsb' 12 4 = 0x6 ∧ (0x7280#16).extractLsb' 12 4 = 0x7 := by
  decide

theorem witness_divide : State.reset.reg .r1 = 0 ∧ State.reset.reg .r0 ≠ 0 ∧ (0 : BitVec 8) = 0 ∧ (255 : BitVec 8) ≠ 0 := by
  decide

theorem witness_shift_index : (7 : BitVec 6).toNat ≤ 7 ∧ ¬(8 : BitVec 6).toNat ≤ 7 := by decide

theorem witness_shift_instr :
    Instr.shlReg .r1 8 = .shlReg .r1 8 ∧ Instr.shrReg .r1 8 = .shrReg .r1 8 ∧ Instr.sarReg .r1 63 = .sarReg .r1 63 ∧
      Instr.rorReg .r1 63 = .rorReg .r1 63 := by
  decide

/-- Both sides of both ends of the protected range. -/
theorem witness_effective_address :
    effectiveAddress (start 0 [(.r2, 0x0100)] []) .r2 (-1) = 0x00FF ∧
      effectiveAddress (start 0 [(.r2, 0x00FF)] []) .r2 1 = 0x0100 ∧
      effectiveAddress (start 0 [(.r2, 0x8000)] []) .r2 (-1) = 0x7FFF ∧
      effectiveAddress (start 0 [(.r2, 0x7FFF)] []) .r2 1 = 0x8000 := by
  decide

theorem witness_push : 0xF000 ≤ ((start 0 [(.r0, 0xF000)] []).reg .r0).toNat ∧ 0xF000 ≤ (State.reset.reg .r0).toNat ∧
    (7 : BitVec 9).toNat ≤ 7 := by
  decide

theorem witness_push_overflow : ((start 0 [(.r0, 0xEFFF)] []).reg .r0).toNat < 0xF000 ∧
    ((start 0 [(.r0, 0)] []).reg .r0).toNat < 0xF000 := by
  decide

theorem witness_pop : (start 0 [(.r0, 0xFFFE)] []).reg .r0 ≠ 0xFFFF ∧ (7 : BitVec 9).toNat ≤ 7 ∧
    Reg.r7 = Reg.ofBits ((7 : BitVec 9).setWidth 3) ∧ Reg.r7 ≠ .r0 := by
  decide

/-- The same with r0 as the destination. -/
theorem witness_pop_r0 : (start 0 [(.r0, 0xFFFE)] []).reg .r0 ≠ 0xFFFF ∧ (0 : BitVec 9).toNat ≤ 7 ∧
    Reg.r0 = Reg.ofBits ((0 : BitVec 9).setWidth 3) := by
  decide

theorem witness_underflow : State.reset.reg .r0 = 0xFFFF ∧ (7 : BitVec 9).toNat ≤ 7 := by decide

theorem witness_stack_index :
    7 < (8 : BitVec 9).toNat ∧ (Instr.pushReg 8 0 = .pushReg 8 0 ∨ Instr.pushReg 8 0 = .pop 8 0) ∧
      7 < (511 : BitVec 9).toNat ∧ (Instr.pop 511 1 = .pushReg 511 1 ∨ Instr.pop 511 1 = .pop 511 1) := by
  decide

theorem witness_branch_word : (0xEC05#16).extractLsb' 12 4 = 0xE := by decide

/-- A condition that holds and one that does not. -/
theorem witness_branch : condHolds State.reset.flags .ne = true ∧ condHolds State.reset.flags .eq = false := by decide

theorem witness_return : (start 0 [(.r0, 0xFFFE)] []).reg .r0 ≠ 0xFFFF := by decide

/-- A state whose next step divides by zero. -/
def faulting : State := start 0 [] [(0, 0x4201)]

theorem witness_precise : step faulting = .next (after (step faulting)) ∧ (after (step faulting)).fault ≠ faulting.fault :=
  ⟨rfl, by decide⟩

theorem witness_fault_table :
    exec (.divImm .r1 0) State.reset = .next (after (exec (.divImm .r1 0) State.reset)) ∧ State.reset.fault = none :=
  ⟨rfl, rfl⟩

/-- Each row of the table of causes is reached. -/
theorem witness_fault_rows :
    [after (exec (.stackReserved 0) State.reset), after (exec (.ld .r1 .r2 0) (start 0 [(.r2, 0x0100)] [])),
     after (exec (.st .r1 .r2 0) (start 0 [(.r2, 0x7FFF)] [])), after (exec (.call 0) (start 0 [(.r0, 0xEFFF)] [])),
     after (exec (.ret 0) State.reset), after (exec (.divImm .r1 0) State.reset),
     after (exec (.rorReg .r1 8) State.reset)].map (fun t => t.fault.map fun r => (r.cause, r.info)) =
      [some (.unknownOpcode, 0xC), some (.protectedAccess, 0x0100), some (.protectedAccess, 0x7FFF),
       some (.stackOverflow, 0xEFFF), some (.stackUnderflow, 0xFFFF), some (.divideByZero, 0),
       some (.registerIndexOutOfRange, 8)] := by
  decide

theorem witness_conforming :
    (Instr.divImm .r1 0).wellFormed = true ∧ State.reset.fault = none ∧
      exec (.divImm .r1 0) State.reset = .next (after (exec (.divImm .r1 0) State.reset)) ∧
      (after (exec (.divImm .r1 0) State.reset)).fault = some ⟨.divideByZero, 0xFFFF, 0x4201, 0⟩ :=
  ⟨by decide, rfl, rfl, by decide⟩

/-- An instruction that is no CMP. -/
theorem witness_not_cmp :
    exec (.hlt 0) State.reset = .next (after (exec (.hlt 0) State.reset)) ∧ ¬(Instr.hlt 0).isCmp :=
  ⟨rfl, fun h => by obtain ⟨_, _, _, h⟩ := h; cases h⟩

/-- A CMP, which is no BR, in two states that differ in the flags. -/
theorem witness_not_br :
    exec (.cmp .r1 .r2 0) State.reset = .next (after (exec (.cmp .r1 .r2 0) State.reset)) ∧
      exec (.cmp .r1 .r2 0) (State.reset.setFlags ⟨true, true, true, true⟩) =
        .next (after (exec (.cmp .r1 .r2 0) (State.reset.setFlags ⟨true, true, true, true⟩))) ∧
      ¬(Instr.cmp .r1 .r2 0).isBr ∧ (Instr.cmp .r1 .r2 0).isCmp :=
  ⟨rfl, rfl, fun ⟨_, _, h⟩ => Instr.noConfusion h, _, _, _, rfl⟩

/-- A BR in two states that differ in C and V. -/
theorem witness_br :
    exec (.br .ge 1) State.reset = .next (after (exec (.br .ge 1) State.reset)) ∧
      exec (.br .ge 1) (State.reset.setFlags ⟨State.reset.flags.z, State.reset.flags.n, true, true⟩) =
        .next (after (exec (.br .ge 1) (State.reset.setFlags ⟨false, false, true, true⟩))) ∧
      (Instr.br .ge 1).isBr :=
  ⟨rfl, rfl, _, _, rfl⟩

/-- A Halted state. -/
def stopped : State := after (step State.reset)

theorem witness_halted : step stopped = .next stopped ∧ stopped.running = false := ⟨rfl, by decide⟩

/-- In Running, one step that halts, one that faults and one that goes on. -/
theorem witness_transitions :
    step State.reset = .next stopped ∧ State.reset.running = true ∧ State.reset.fault = none ∧
      step faulting = .next (after (step faulting)) ∧ faulting.running = true ∧ faulting.fault = none ∧
      (run1 0x9480 State.reset).running = true :=
  ⟨rfl, rfl, rfl, rfl, by decide, by decide, by decide⟩

theorem witness_frame_pc :
    exec (.br .al 1) State.reset = .next (after (exec (.br .al 1) State.reset)) ∧
      (after (exec (.br .al 1) State.reset)).pc ≠ State.reset.pc :=
  ⟨rfl, by decide⟩

/-- A run of two steps that stores outside the protected range, with the ends of the range. -/
theorem witness_protected :
    Sys2Proof.core.run 2 (start 0 [(.r2, 0x8000), (.r1, 7)] [(0, 0xB280)]) =
        .next (after (Sys2Proof.core.run 2 (start 0 [(.r2, 0x8000), (.r1, 7)] [(0, 0xB280)]))) ∧
      0x0100 ≤ (0x0100#16).toNat ∧ (0x7FFF#16).toNat ≤ 0x7FFF :=
  ⟨rfl, by decide, by decide⟩

theorem witness_run : State.reset.running = true ∧ stopped.running = false ∧
    exec (decode (State.reset.readMem State.reset.pc)) (State.reset.setPc (State.reset.pc + 1)) = .next stopped :=
  ⟨rfl, by decide, rfl⟩

theorem witness_step : State.reset.running = true ∧ decode (State.reset.readMem State.reset.pc) = .hlt 0 := by decide

/-- `ST r1,[r2]` at 0x0003 stores to 0x0004 (program P7, 95_test_vectors.md). -/
theorem witness_store_fetch :
    let s := start 3 [(.r2, 4)] [(3, 0xB280), (4, 0xEDFF)]
    s.running = true ∧ decode (s.readMem s.pc) = .st .r1 .r2 0 ∧ effectiveAddress s .r2 0 = s.pc + 1 ∧
      isProtected (s.pc + 1) = false := by
  decide

/-- A Running state with flags set and memory written, whose next step faults. -/
def lively : State := ⟨State.reset.regs, 1, ⟨false, true, true, true⟩, true, none, [(1, 0x4201)]⟩

theorem witness_inv_step : lively.Inv ∧ step lively = .next (after (step lively)) :=
  ⟨⟨by decide, ⟨fun h => Bool.noConfusion h, fun _ => rfl⟩, fun _ h => by cases h⟩, rfl⟩

/-- A Halted state with a fault recorded meets the invariant too. -/
theorem witness_inv_fault :
    State.Inv ⟨State.reset.regs, 1, ⟨true, false, false, false⟩, false, some ⟨.divideByZero, 0, 0x4201, 0⟩, []⟩ := by
  refine ⟨by decide, ⟨fun _ => ⟨rfl, rfl, rfl⟩, fun h => Bool.noConfusion h⟩, ?_⟩
  rintro r ⟨⟩
  exact ⟨rfl, ⟨rfl, by decide⟩, by decide⟩

theorem witness_canonical :
    Memory.wf [(1, 5), (65535, 7)] = true ∧ Memory.wf [(1, 5), (65535, 7)] = true ∧
      ∀ a : Word, Memory.read [(1, 5), (65535, 7)] a.toNat = Memory.read [(1, 5), (65535, 7)] a.toNat :=
  ⟨by decide, by decide, fun _ => rfl⟩

/-- The forms that are not canonical are told apart. -/
theorem test_memory_not_canonical :
    [Memory.wf [(2, 5), (1, 7)], Memory.wf [(1, 5), (1, 7)], Memory.wf [(1, 0)], Memory.wf [(65536, 1)]] =
      [false, false, false, false] := by
  decide

/-- The longest program and one word more. -/
theorem witness_load :
    (List.replicate 65536 (0 : Word)).length ≤ 65536 ∧ ¬(List.replicate 65537 (0 : Word)).length ≤ 65536 := by
  simp only [List.length_replicate]
  omega

theorem witness_odd_file : ([0x0B] : List Byte).length % 2 = 1 := by decide

theorem witness_row : matchesRow 0xFFFF 34 = true ∧ (decode 0xFFFF).row = 34 ∧ 34 < 35 := by decide

theorem witness_ignored :
    exec (.stackReserved 1) State.reset = .next (after (exec (.stackReserved 1) State.reset)) ∧
      exec (Instr.stackReserved 1).clearIgnored State.reset = .next (after (exec (.stackReserved 0) State.reset)) :=
  ⟨rfl, rfl⟩

theorem witness_assembled :
    assembleInstrs "x: ADD r1,r2\n\nBR AL,x".toList = .ok [.addReg .r1 .r2 0, .br .al (-2)] ∧
      readLines 1 (splitLines "x: ADD r1,r2\n\nBR AL,x".toList) =
        .ok [⟨1, some ['x'], "ADD r1,r2".toList⟩, ⟨2, none, []⟩, ⟨3, none, "BR AL,x".toList⟩] :=
  ⟨rfl, rfl⟩

/-- An error in an instruction and one in a label definition. -/
theorem witness_asm_error :
    assemble "HLT\nx: BR AL,y".toList = .error ⟨.unresolvedLabel, some "BR".toList, ['y'], 2⟩ ∧
      assemble "x: HLT\nx: RET".toList = .error ⟨.duplicateLabel, none, ['x'], 2⟩ ∧
      assemble "HLT\n: RET".toList = .error ⟨.badLabel, none, [], 2⟩ :=
  ⟨rfl, rfl, rfl⟩

/-- A BR at 300 reaches back to 45 and forward to 556 and no further. -/
theorem witness_branch_reach :
    ([(['x'], 45)] : LabelTable).lookup ['x'] = some 45 ∧ (300 ≤ 45 + 255 ∧ 45 ≤ 300 + 256) ∧
      ([(['x'], 556)] : LabelTable).lookup ['x'] = some 556 ∧ (300 ≤ 556 + 255 ∧ 556 ≤ 300 + 256) ∧
      ¬(300 ≤ 44 + 255 ∧ 44 ≤ 300 + 256) ∧ ¬(300 ≤ 557 + 255 ∧ 557 ≤ 300 + 256) := by
  decide

/-- The same for CALL at 2000: 977 and 3024. -/
theorem witness_call_reach :
    ([(['x'], 977)] : LabelTable).lookup ['x'] = some 977 ∧ (2000 ≤ 977 + 1023 ∧ 977 ≤ 2000 + 1024) ∧
      (2000 ≤ 3024 + 1023 ∧ 3024 ≤ 2000 + 1024) ∧ ¬(2000 ≤ 976 + 1023 ∧ 976 ≤ 2000 + 1024) ∧
      ¬(2000 ≤ 3025 + 1023 ∧ 3025 ≤ 2000 + 1024) := by
  decide

/-- A taken branch back by three words, and a call, in a state that holds them. -/
theorem witness_landing :
    let s := start 4 [] [(4, 0xE3FD)]
    let c := start 2 [] [(2, 0xF002)]
    (s.running = true ∧ s.pc.toNat = 4 ∧ s.readMem s.pc = encode (.br .ne (-3)) ∧ condHolds s.flags .ne = true) ∧
      (c.running = true ∧ c.pc.toNat = 2 ∧ c.readMem c.pc = encode (.call 2) ∧ 0xF000 ≤ (c.reg .r0).toNat) := by
  decide

theorem witness_push_pop :
    0xF000 ≤ ((start 0 [(.r0, 0xF000)] []).reg .r0).toNat ∧ (7 : BitVec 9).toNat ≤ 7 ∧ (0 : BitVec 9).toNat ≤ 7 ∧
      Reg.r7 = Reg.ofBits ((7 : BitVec 9).setWidth 3) ∧ Reg.r0 = Reg.ofBits ((0 : BitVec 9).setWidth 3) := by
  decide

/-- `CALL f` at 0x0000 and `f: RET` at 0x0002 (scenario 3). -/
theorem witness_call_return :
    let s := start 0 [] [(0, 0xF001), (2, 0xF800)]
    s.running = true ∧ 0xF000 ≤ (s.reg .r0).toNat ∧ decode (s.readMem s.pc) = .call 1 ∧
      decode (s.readMem (s.pc + 1 + (1 : BitVec 11).signExtend 16)) = .ret 0 ∧
      s.pc + 1 + (1 : BitVec 11).signExtend 16 ≠ s.reg .r0 := by
  decide

/-- Operands with V set and with V clear. -/
theorem witness_overflow : (compareFlags 0x8000 1).v = true ∧ (compareFlags 1 0x8000).v = true ∧
    (compareFlags 0x7FFF 1).v = false := by
  decide

end Sys2Proof.Tests
end

section
/-! The whole-machine statements of 10_state.md: the step is total (R22), the flags are written by CMP and read by BR
alone (R15), and every piece of state has its reset value (R24).

That an instruction does not read the flags is said as commutation: executing it after replacing the flags gives what
replacing them after executing it gives. Each shared operation of the execute phase commutes, and `exec` follows
constructor by constructor. -/

namespace Sys2Proof.Machine

/-! ### The step is total (R22) -/

/-- An instruction that may or may not raise ends in `complete`, which is total; of every other one the next state can
be read off its meaning. -/
theorem exec_total (i : Instr) (s : State) : ∃ t, exec i s = .next t := by
  cases i with
  | divReg | divImm | shlReg | shrReg | sarReg | rorReg | ld | st | pushReg | pop | pushImm | call | ret =>
    exact complete_total _ _ _
  | _ => exact ⟨_, rfl⟩

theorem step_total (s : State) : ∃ t, step s = .next t := by
  cases hr : s.running with
  | false => exact ⟨s, step_halted hr⟩
  | true =>
    rw [step_running hr]
    exact exec_total _ _

/-- Settles O25: the execute phase is total, and a step is an execute phase or stays. -/
theorem everyStepHasANextState : Obligations.EveryStepHasANextState :=
  ⟨exec_total, step_total⟩

/-! ### Replacing the flags commutes with the shared operations -/

theorem divide_setFlags (rd : Reg) (b : Word) (s : State) (f : Flags) :
    divide rd b (s.setFlags f) = (divide rd b s).map (·.setFlags f) := by
  by_cases hb : b = 0
  · subst hb
    rfl
  · rw [divide_ok hb, divide_ok hb]
    rfl

theorem shiftByReg_setFlags (g : Word → Nat → Word) (rd : Reg) (idx : BitVec 6) (s : State) (f : Flags) :
    shiftByReg g rd idx (s.setFlags f) = (shiftByReg g rd idx s).map (·.setFlags f) := by
  by_cases hx : idx.toNat ≤ 7
  · rw [shiftByReg_ok hx, shiftByReg_ok hx]
    rfl
  · rw [shiftByReg_error (by omega), shiftByReg_error (by omega)]
    rfl

/-- LD and ST go on from the checked address to a state; the check reads registers only. -/
theorem dataAddress_map_setFlags (rb : Reg) (off : BitVec 6) (s : State) (f : Flags) (g : State → Word → State)
    (hg : ∀ ea, g (s.setFlags f) ea = (g s ea).setFlags f) :
    (dataAddress (s.setFlags f) rb off).map (g (s.setFlags f)) =
      ((dataAddress s rb off).map (g s)).map (·.setFlags f) := by
  cases hp : isProtected (effectiveAddress s rb off) with
  | true =>
    rw [dataAddress_error hp, dataAddress_error (s := s.setFlags f) hp]
    rfl
  | false =>
    rw [dataAddress_ok hp, dataAddress_ok (s := s.setFlags f) hp]
    exact congrArg Except.ok (hg _)

theorem push_setFlags (v : Word) (s : State) (f : Flags) :
    push v (s.setFlags f) = (push v s).map (·.setFlags f) := by
  rcases push_cases v s with ⟨hs, e⟩ | ⟨hs, e⟩
  · rw [e, push_error (s := s.setFlags f) v hs]
    rfl
  · rw [e, push_ok (s := s.setFlags f) v hs]
    rfl

/-- POP and RET go on from the popped word and the moved SP to a state. -/
theorem popWord_map_setFlags (s : State) (f : Flags) (g : Word → State → State)
    (hg : ∀ v t, g v (State.setFlags t f) = (g v t).setFlags f) :
    ((popWord (s.setFlags f)).map fun p => g p.1 p.2) =
      ((popWord s).map fun p => g p.1 p.2).map (·.setFlags f) := by
  rcases popWord_cases s with ⟨hs, e⟩ | ⟨hs, e⟩
  · rw [e, popWord_error (s := s.setFlags f) hs]
    rfl
  · rw [e, popWord_ok (s := s.setFlags f) hs]
    exact congrArg Except.ok (hg (s.readMem (s.reg .r0 + 1)) (s.setReg .r0 (s.reg .r0 + 1)))

/-- A check of a wide register index reads no state, so what follows it decides. -/
theorem wideRegIndex_bind_setFlags {n : Nat} (idx : BitVec n) (s : State) (f : Flags) (g : State → Reg → Except Trap State)
    (hg : ∀ r, g (s.setFlags f) r = (g s r).map (·.setFlags f)) :
    (wideRegIndex idx).bind (g (s.setFlags f)) = ((wideRegIndex idx).bind (g s)).map (·.setFlags f) := by
  by_cases hx : idx.toNat ≤ 7
  · rw [wideRegIndex_ok hx]
    exact hg _
  · rw [wideRegIndex_error (by omega)]
    rfl

/-- A computation that commutes with replacing the flags still does once its trap, if any, is taken. -/
theorem complete_setFlags {w : Word} {s t : State} {r r' : Except Trap State} {f : Flags}
    (h : complete w s r = .next t) (hr : r' = r.map (·.setFlags f)) :
    complete w (s.setFlags f) r' = .next (t.setFlags f) := by
  subst hr
  cases r <;> cases h <;> rfl

/-! ### What `exec` does with the flags (R15) -/

/-- CMP alone writes the flags; a fault keeps them too. -/
theorem exec_flags {i : Instr} {s t : State} (h : exec i s = .next t) (hc : ¬i.isCmp) : t.flags = s.flags := by
  cases exec_effect h with
  | cmp ra rb ign hi => exact absurd ⟨ra, rb, ign, hi⟩ hc
  | br c off => split <;> rfl
  | _ => rfl

/-- An instruction that is neither CMP nor BR carries the flags along unread. -/
theorem exec_setFlags {i : Instr} {s t : State} (f : Flags) (h : exec i s = .next t) (hc : ¬i.isCmp) (hb : ¬i.isBr) :
    exec i (s.setFlags f) = .next (t.setFlags f) := by
  cases i with
  | cmp ra rb ign => exact absurd ⟨ra, rb, ign, rfl⟩ hc
  | br c off => exact absurd ⟨c, off, rfl⟩ hb
  | divReg | divImm => exact complete_setFlags h (divide_setFlags _ _ s f)
  | shlReg | shrReg | sarReg | rorReg => exact complete_setFlags h (shiftByReg_setFlags _ _ _ s f)
  | ld rd rb off =>
    exact complete_setFlags h
      (dataAddress_map_setFlags rb off s f (fun s ea => s.setReg rd (s.readMem ea)) fun _ => rfl)
  | st rs rb off =>
    exact complete_setFlags h
      (dataAddress_map_setFlags rb off s f (fun s ea => s.writeMem ea (s.reg rs)) fun _ => rfl)
  | pushReg idx ign =>
    exact complete_setFlags h
      (wideRegIndex_bind_setFlags idx s f (fun s r => push (s.reg r) s) fun r => push_setFlags (s.reg r) s f)
  | pop idx ign =>
    exact complete_setFlags h
      (wideRegIndex_bind_setFlags idx s f (fun s r => (popWord s).map fun p => p.2.setReg r p.1) fun r =>
        popWord_map_setFlags s f (fun v t => t.setReg r v) fun _ _ => rfl)
  | pushImm val ign => exact complete_setFlags h (push_setFlags _ s f)
  | call off =>
    refine complete_setFlags h ?_
    rw [State.setFlags_pc, push_setFlags]
    cases push s.pc s <;> rfl
  | ret ign =>
    exact complete_setFlags h (popWord_map_setFlags s f (fun v t => t.setPc v) fun _ _ => rfl)
  | _ =>
    cases h
    rfl

/-- CMP overwrites whatever flags it finds. -/
theorem exec_cmp_setFlags {i : Instr} (hc : i.isCmp) (s : State) (f : Flags) : exec i (s.setFlags f) = exec i s := by
  obtain ⟨ra, rb, ign, rfl⟩ := hc
  rfl

/-- No condition looks at `C` or `V` (R108). -/
theorem condHolds_eq_of_z_n (f : Flags) (c v : Bool) (cc : Cond) : condHolds ⟨f.z, f.n, c, v⟩ cc = condHolds f cc := by
  cases cc <;> rfl

theorem exec_br_setFlags {i : Instr} {s t : State} (c v : Bool) (hb : i.isBr) (h : exec i s = .next t) :
    exec i (s.setFlags ⟨s.flags.z, s.flags.n, c, v⟩) = .next (t.setFlags ⟨s.flags.z, s.flags.n, c, v⟩) := by
  obtain ⟨cc, off, rfl⟩ := hb
  cases h
  simp only [exec, execBr, State.setFlags_flags, condHolds_eq_of_z_n]
  split <;> rfl

/-- Settles O26: `exec_flags` for the writers, and for the readers commutation with replacing the flags (CMP apart,
which overwrites them, and BR, which looks at `Z` and `N`). -/
theorem flagsWrittenByCompareReadByBranch : Obligations.FlagsWrittenByCompareReadByBranch := by
  refine ⟨fun _ _ _ h hc => exec_flags h hc, fun i s t u f ht hu hb => ?_, fun i s t u c v ht hu hb => ?_⟩
  · by_cases hc : i.isCmp
    · rw [exec_cmp_setFlags hc, ht] at hu
      cases hu
      exact ⟨rfl, rfl, rfl, rfl, rfl, fun _ => rfl⟩
    · rw [exec_setFlags f ht hc hb] at hu
      cases hu
      exact ⟨rfl, rfl, rfl, rfl, rfl, fun h => absurd h hc⟩
  · rw [exec_br_setFlags c v hb ht] at hu
    cases hu
    rfl

/-! ### Reset (R24) -/

theorem State.reset_reg (r : Reg) : State.reset.reg r = if r = .r0 then 0xFFFF else 0 := by
  cases r <;> rfl

@[simp] theorem State.reset_readMem (a : Word) : State.reset.readMem a = 0 := rfl

/-- Settles O37: the registers by their reset values, memory because no address is listed. -/
theorem resetValues : Obligations.ResetValues := by
  refine ⟨State.reset_reg .r0, fun r hr => ?_, rfl, rfl, rfl, rfl, State.reset_readMem⟩
  rw [State.reset_reg, if_neg hr]

end Sys2Proof.Machine
end

section
/-! The encoding of 30_encoding.md section 5: the words of an assembled program decode to the instructions the
assembler built (R72).

The encoder has one function for each format (R52 to R59) and the decoder one accessor for each field; each accessor
reads back what the format put in its place. With these facts the decoder, asked for the word of an instruction, follows
the branch of that instruction and rebuilds its operands. -/

namespace Sys2Proof

open Machine

/-! ### The fields of each format (R52 to R59) -/

/-- A field holds `f` when dividing the word's number down to the field's place leaves the number of `f`. -/
theorem field_eq {w : Word} {lo len : Nat} {f : BitVec len} (h : w.toNat / 2 ^ lo % 2 ^ len = f.toNat) :
    w.extractLsb' lo len = f :=
  BitVec.eq_of_toNat_eq (by rw [toNat_field, h])

theorem rdField_eq {w : Word} {r : Reg} (h : w.toNat / 2 ^ 9 % 2 ^ 3 = r.bits.toNat) : rdField w = r := by
  rw [rdField, field_eq h, reg_ofBits_bits]

theorem rsField_eq {w : Word} {r : Reg} (h : w.toNat / 2 ^ 6 % 2 ^ 3 = r.bits.toNat) : rsField w = r := by
  rw [rsField, field_eq h, reg_ofBits_bits]

theorem condField_eq {w : Word} {c : Cond} (h : w.toNat / 2 ^ 9 % 2 ^ 3 = c.bits.toNat) : condField w = c := by
  rw [condField, field_eq h, cond_ofBits_bits]

@[simp] theorem encodeN_fields (ign : BitVec 12) :
    opcodeField (encodeN ign) = 0x0#4 ∧ (encodeN ign).extractLsb' 0 12 = ign := by
  have hw := encodeN_toNat ign
  exact ⟨field_eq (by simp only [BitVec.toNat_ofNat]; omega), field_eq (by omega)⟩

@[simp] theorem encodeAReg_fields (op : BitVec 4) (rd rs : Reg) (ign : BitVec 5) :
    opcodeField (encodeAReg op rd rs ign) = op ∧ immediateBit (encodeAReg op rd rs ign) = false ∧
      rdField (encodeAReg op rd rs ign) = rd ∧ rsField (encodeAReg op rd rs ign) = rs ∧
      aluIgnored (encodeAReg op rd rs ign) = ign := by
  have hw := encodeAReg_toNat op rd rs ign
  exact ⟨field_eq (by omega), encodeAReg_bit op rd rs ign 0, rdField_eq (by omega), rsField_eq (by omega),
    field_eq (by omega)⟩

@[simp] theorem encodeAImm_fields (op : BitVec 4) (rd : Reg) (imm : BitVec 8) :
    opcodeField (encodeAImm op rd imm) = op ∧ immediateBit (encodeAImm op rd imm) = true ∧
      rdField (encodeAImm op rd imm) = rd ∧ imm8Field (encodeAImm op rd imm) = imm := by
  have hw := encodeAImm_toNat op rd imm
  exact ⟨field_eq (by omega), encodeAImm_bit op rd imm 0, rdField_eq (by omega), field_eq (by omega)⟩

@[simp] theorem encodeS_fields (rd : Reg) (amount : BitVec 6) (mode : BitVec 2) (imm : BitVec 1) :
    opcodeField (encodeS rd amount mode imm) = 0x8#4 ∧ rdField (encodeS rd amount mode imm) = rd ∧
      amountField (encodeS rd amount mode imm) = amount ∧ shiftModeField (encodeS rd amount mode imm) = mode ∧
      immediateBit (encodeS rd amount mode imm) = imm.getLsbD 0 := by
  have hw := encodeS_toNat rd amount mode imm
  exact ⟨field_eq (by simp only [BitVec.toNat_ofNat]; omega), rdField_eq (by omega), field_eq (by omega),
    field_eq (by omega), encodeS_bit rd amount mode imm 0⟩

@[simp] theorem encodeM_fields (op : BitVec 4) (r b : Reg) (low : BitVec 6) :
    opcodeField (encodeM op r b low) = op ∧ rdField (encodeM op r b low) = r ∧ rsField (encodeM op r b low) = b ∧
      low6Field (encodeM op r b low) = low := by
  have hw := encodeM_toNat op r b low
  exact ⟨field_eq (by omega), rdField_eq (by omega), rsField_eq (by omega), field_eq (by omega)⟩

@[simp] theorem encodeK_fields (mode : BitVec 2) (value : BitVec 9) (imm : BitVec 1) :
    opcodeField (encodeK mode value imm) = 0xC#4 ∧ stackModeField (encodeK mode value imm) = mode ∧
      valueField (encodeK mode value imm) = value ∧ stackImmField (encodeK mode value imm) = imm := by
  have hw := encodeK_toNat mode value imm
  exact ⟨field_eq (by simp only [BitVec.toNat_ofNat]; omega), field_eq (by omega), field_eq (by omega),
    field_eq (by omega)⟩

@[simp] theorem encodeB_fields (c : Cond) (off : BitVec 9) :
    opcodeField (encodeB c off) = 0xE#4 ∧ condField (encodeB c off) = c ∧ off9Field (encodeB c off) = off := by
  have hw := encodeB_toNat c off
  exact ⟨field_eq (by simp only [BitVec.toNat_ofNat]; omega), condField_eq (by omega), field_eq (by omega)⟩

@[simp] theorem encodeF_fields (mode : BitVec 1) (off : BitVec 11) :
    opcodeField (encodeF mode off) = 0xF#4 ∧ retBit (encodeF mode off) = mode.getLsbD 0 ∧
      off11Field (encodeF mode off) = off := by
  have hw := encodeF_toNat mode off
  exact ⟨field_eq (by simp only [BitVec.toNat_ofNat]; omega), encodeF_bit mode off 11, field_eq (by omega)⟩

/-- Format K with Mode 3, whose low ten bits are one ignored field (R56, R63). -/
theorem encode_stackReserved_toNat (ign : BitVec 10) :
    (encode (.stackReserved ign)).toNat = 12 * 4096 + 3 * 1024 + ign.toNat := by
  show (0xC#4 ++ 3#2 ++ ign).toNat = _
  simp only [toNat_append_add, BitVec.toNat_ofNat]
  omega

@[simp] theorem encode_stackReserved_fields (ign : BitVec 10) :
    opcodeField (encode (.stackReserved ign)) = 0xC#4 ∧ stackModeField (encode (.stackReserved ign)) = 3#2 ∧
      (encode (.stackReserved ign)).extractLsb' 0 10 = ign := by
  have hw := encode_stackReserved_toNat ign
  exact ⟨field_eq (by simp only [BitVec.toNat_ofNat]; omega), field_eq (by simp only [BitVec.toNat_ofNat]; omega),
    field_eq (by omega)⟩

/-! ### Decoding the word of an instruction (R72) -/

/-- The cases are what selects the decoder's branch: the opcode alone, with the immediate bit (format A), with the mode
and the immediate bit (format S), with the mode (formats K and F). -/
@[simp] theorem decode_encode (i : Instr) : decode (encode i) = i := by
  cases i with
  | hlt | ld | st | cmp | br => simp [encode, decode, Opcode.ofBits]
  | addReg | subReg | mulReg | divReg | andReg | orReg | xorReg | movReg
  | addImm | subImm | mulImm | divImm | andImm | orImm | xorImm | movImm => simp [encode, decode, Opcode.ofBits]
  | shlReg | shrReg | sarReg | rorReg | shlImm | shrImm | sarImm | rorImm =>
    simp [encode, decode, Opcode.ofBits, decodeShift]
  | pushReg | pop | pushImm => simp [encode, decode, Opcode.ofBits, decodeStack]
  | stackReserved => simp [decode, Opcode.ofBits, decodeStack]
  | call | ret => simp [encode, decode, Opcode.ofBits]

namespace Machine

/-- The assembler accepts what its two passes accept, and emits the words of the instructions they built. -/
theorem assemble_of_assembleInstrs {source : Text} {is : List Instr} (h : assembleInstrs source = .ok is) :
    assemble source = .ok (is.map encode) := by
  rw [assemble, h]
  rfl

/-- Settles O44: the words emitted are those of the instructions, and each decodes back. -/
theorem assembledWordsDecodeBack : Obligations.AssembledWordsDecodeBack := by
  intro source is h
  refine ⟨is.map encode, assemble_of_assembleInstrs h, ?_⟩
  calc (is.map encode).map decode = is.map (decode ∘ encode) := List.map_map
    _ = is.map id := List.map_congr_left fun i _ => decode_encode i
    _ = is := List.map_id is

end Machine
end Sys2Proof
end

section
/-! HLT (40_hlt.md R80): the execute phase is `State.halt`, so what HLT keeps is what `State.halt` keeps. A step in
Running at an HLT word halts the state after the fetch, which differs from the one before it in its pc alone. -/

namespace Sys2Proof.Machine

/-- HLT cannot raise, and the bits it ignores have no part in its meaning. -/
theorem exec_hlt (ign : BitVec 12) (s : State) : exec (.hlt ign) s = .next s.halt := rfl

/-- The opcode map sends every word with 0x0 in its top four bits to HLT (R60, R62). -/
theorem decode_of_opcodeField_zero {w : Word} (h : opcodeField w = 0x0) : decode w = .hlt (w.extractLsb' 0 12) := by
  rw [decode, h]
  rfl

/-- The pc is advanced by the fetch, before HLT stops the machine (R21, R80). -/
theorem step_of_opcodeField_zero {s : State} (hr : s.running = true) (h : opcodeField (fetchWord s) = 0x0) :
    step s = .next (advancePc s).halt := by
  rw [step_running hr, decode_of_opcodeField_zero h, exec_hlt]

theorem sameRegsExcept_halt (s : State) : sameRegsExcept [] s s.halt := fun r _ => State.halt_reg s r

theorem sameMemExcept_halt (s : State) : sameMemExcept [] s s.halt := fun a _ => State.halt_readMem s a

/-- Settles O1: the execute phase by `exec_hlt`, the canonical word by computation, and the step by
`step_of_opcodeField_zero`, where registers and memory after the fetch are those before it. -/
theorem haltStopsAndChangesNothingElse : Obligations.HaltStopsAndChangesNothingElse := by
  intro s ign
  refine ⟨⟨s.halt, exec_hlt ign s, State.halt_running s, State.halt_fault s, State.halt_flags s, State.halt_pc s,
    sameRegsExcept_halt s, sameMemExcept_halt s⟩, by decide, fun hr hw => ?_⟩
  exact ⟨(advancePc s).halt, step_of_opcodeField_zero hr hw, State.halt_running _, State.halt_fault _,
    State.halt_flags _, State.halt_pc _, sameRegsExcept_halt (advancePc s), sameMemExcept_halt (advancePc s)⟩

end Sys2Proof.Machine
end

section
/-! BR (47_branch.md R108, R109): its whole effect, taken or not, is the pc it leaves, so what BR keeps is what
`State.setPc` keeps. The condition table of R108 decides the pc, and a sign-extended offset added to a word is the
integer sum reduced mod 65536. -/

namespace Sys2Proof.Machine

/-- The opcode map sends every word with 0xE in its top four bits to BR (R58, R60). -/
theorem decode_of_opcodeField_br {w : Word} (h : opcodeField w = 0xE) : decode w = .br (condField w) (off9Field w) := by
  rw [decode, h]
  rfl

/-- The condition table of R108; the reserved code has no row in it, so it never holds. -/
theorem condHolds_iff (f : Flags) (c : Cond) :
    condHolds f c = true ↔
      c = .eq ∧ f.z = true ∨ c = .ne ∧ f.z = false ∨ c = .gt ∧ f.n = false ∧ f.z = false ∨ c = .lt ∧ f.n = true ∨
        c = .ge ∧ (f.n = false ∨ f.z = true) ∨ c = .le ∧ (f.n = true ∨ f.z = true) ∨ c = .al := by
  cases c <;> simp [condHolds]

/-- An offset field of any width, extended by its sign and added to a word, moves it by the signed value of the field,
mod 65536 (R61). -/
theorem toNat_add_signExtend {n : Nat} (a : Word) (off : BitVec n) :
    ((a + off.signExtend 16).toNat : Int) = (a.toNat + off.toInt) % 65536 := by
  rw [BitVec.signExtend, BitVec.toNat_add, BitVec.toNat_ofInt]
  omega

theorem branchTarget_toNat (s : State) (off : BitVec 9) :
    ((branchTarget s off).toNat : Int) = (s.pc.toNat + off.toInt) % 65536 :=
  toNat_add_signExtend s.pc off

/-- BR cannot raise, and sets the pc: to its target when taken, to what it was when not (R109). -/
theorem exec_br (c : Cond) (off : BitVec 9) (s : State) :
    exec (.br c off) s = .next (s.setPc (if condHolds s.flags c then branchTarget s off else s.pc)) := by
  show execBr c off s = _
  rw [execBr]
  split <;> rfl

theorem sameRegsExcept_setPc (s : State) (p : Word) : sameRegsExcept [] s (s.setPc p) := fun r _ => State.setPc_reg s p r

theorem sameMemExcept_setPc (s : State) (p : Word) : sameMemExcept [] s (s.setPc p) := fun a _ => State.setPc_readMem s p a

theorem sameStatus_setPc (s : State) (p : Word) : sameStatus s (s.setPc p) :=
  ⟨State.setPc_flags s p, State.setPc_running s p, State.setPc_fault s p⟩

/-- Settles O17: decoding by the opcode map; execution by `exec_br`, where `condHolds_iff` turns the model's condition
into the table's, `branchTarget_toNat` gives the taken pc, and the rest is kept because only the pc is set. -/
theorem branchMovesPcExactlyWhenConditionHolds : Obligations.BranchMovesPcExactlyWhenConditionHolds := by
  refine ⟨fun w hw => decode_of_opcodeField_br hw, fun s c off => ⟨_, exec_br c off s, ?_,
    sameRegsExcept_setPc s _, sameMemExcept_setPc s _, sameStatus_setPc s _⟩⟩
  rw [State.setPc_pc]
  by_cases hc : condHolds s.flags c = true
  · rw [if_pos hc, if_pos ((condHolds_iff _ _).mp hc)]
    exact branchTarget_toNat s off
  · rw [if_neg hc, if_neg (mt (condHolds_iff _ _).mpr hc)]

end Sys2Proof.Machine
end

section
/-! The encoding of 30_encoding.md, the other way round: the encoder rebuilds every word from the fields the decoder
reads in it, so decoding and encoding are inverse (sections 1 and 4), and the rows of the opcode table partition the
words (section 4). -/

namespace Sys2Proof

open Machine

/-! ### The opcode map (R60) -/

/-- The 4-bit code of an opcode, the inverse of `Opcode.ofBits` (R60). -/
def Opcode.code : Opcode → BitVec 4
  | .hlt => 0x0 | .add => 0x1 | .sub => 0x2 | .mul => 0x3
  | .div => 0x4 | .and => 0x5 | .or => 0x6 | .xor => 0x7
  | .shf => 0x8 | .mov => 0x9 | .ld => 0xA | .st => 0xB
  | .stack => 0xC | .cmp => 0xD | .br => 0xE | .func => 0xF

theorem opcode_code_ofBits (b : BitVec 4) : (Opcode.ofBits b).code = b := by
  revert b
  decide

/-- A word that decodes by the branch of `op` has the code of `op` in its top four bits. -/
theorem opcodeField_of_ofBits {w : Word} {op : Opcode} (h : Opcode.ofBits (opcodeField w) = op) :
    opcodeField w = op.code := by
  rw [← h, opcode_code_ofBits]

/-! ### Each format rebuilds the word from its fields (R52 to R59) -/

theorem toNat_rdField_bits (w : Word) : (rdField w).bits.toNat = w.toNat / 2 ^ 9 % 2 ^ 3 := by
  rw [rdField, reg_bits_ofBits, toNat_field]

theorem toNat_rsField_bits (w : Word) : (rsField w).bits.toNat = w.toNat / 2 ^ 6 % 2 ^ 3 := by
  rw [rsField, reg_bits_ofBits, toNat_field]

theorem toNat_condField_bits (w : Word) : (condField w).bits.toNat = w.toNat / 2 ^ 9 % 2 ^ 3 := by
  rw [condField, cond_bits_ofBits, toNat_field]

theorem toNat_opcodeField (w : Word) : (opcodeField w).toNat = w.toNat / 2 ^ 12 := by
  have := w.isLt
  rw [opcodeField, toNat_field]
  omega

/-- A one-bit test of a word as arithmetic. -/
theorem getLsbD_eq_decide (w : Word) (k : Nat) : w.getLsbD k = decide (w.toNat / 2 ^ k % 2 = 1) := by
  rw [BitVec.getLsbD, Nat.testBit_eq_decide_div_mod_eq]

theorem immediateBit_eq_false {w : Word} (h : immediateBit w = false) : w.toNat % 2 = 0 := by
  rw [immediateBit, getLsbD_eq_decide, decide_eq_false_iff_not] at h
  omega

theorem immediateBit_eq_true {w : Word} (h : immediateBit w = true) : w.toNat % 2 = 1 := by
  rw [immediateBit, getLsbD_eq_decide, decide_eq_true_iff] at h
  omega

/-- A one-bit field as its bit. -/
theorem toNat_ofBool_getLsbD (w : Word) (k : Nat) : (BitVec.ofBool (w.getLsbD k)).toNat = w.toNat / 2 ^ k % 2 := by
  rw [getLsbD_eq_decide, BitVec.toNat_ofBool]
  by_cases h : w.toNat / 2 ^ k % 2 = 1
  · simp [h]
  · simp [h]
    omega


theorem encodeN_eq {w : Word} (h : opcodeField w = 0x0#4) : encodeN (w.extractLsb' 0 12) = w := by
  apply BitVec.eq_of_toNat_eq
  have hop := toNat_opcodeField w
  rw [h, BitVec.toNat_ofNat] at hop
  rw [encodeN_toNat, toNat_field]
  omega

theorem encodeAReg_eq {w : Word} (h : immediateBit w = false) :
    encodeAReg (opcodeField w) (rdField w) (rsField w) (aluIgnored w) = w := by
  apply BitVec.eq_of_toNat_eq
  have hbit := immediateBit_eq_false h
  rw [encodeAReg_toNat, toNat_opcodeField, toNat_rdField_bits, toNat_rsField_bits, aluIgnored, toNat_field]
  omega

theorem encodeAImm_eq {w : Word} (h : immediateBit w = true) :
    encodeAImm (opcodeField w) (rdField w) (imm8Field w) = w := by
  apply BitVec.eq_of_toNat_eq
  have hbit := immediateBit_eq_true h
  rw [encodeAImm_toNat, toNat_opcodeField, toNat_rdField_bits, imm8Field, toNat_field]
  omega

theorem encodeS_eq {w : Word} (h : opcodeField w = 0x8#4) :
    encodeS (rdField w) (amountField w) (shiftModeField w) (BitVec.ofBool (immediateBit w)) = w := by
  apply BitVec.eq_of_toNat_eq
  have hop := toNat_opcodeField w
  rw [h, BitVec.toNat_ofNat] at hop
  rw [encodeS_toNat, toNat_rdField_bits, amountField, shiftModeField, immediateBit, toNat_field, toNat_field,
    toNat_ofBool_getLsbD]
  omega

theorem encodeM_eq (w : Word) : encodeM (opcodeField w) (rdField w) (rsField w) (low6Field w) = w := by
  apply BitVec.eq_of_toNat_eq
  rw [encodeM_toNat, toNat_opcodeField, toNat_rdField_bits, toNat_rsField_bits, low6Field, toNat_field]
  omega

theorem encodeK_eq {w : Word} (h : opcodeField w = 0xC#4) :
    encodeK (stackModeField w) (valueField w) (stackImmField w) = w := by
  apply BitVec.eq_of_toNat_eq
  have hop := toNat_opcodeField w
  rw [h, BitVec.toNat_ofNat] at hop
  rw [encodeK_toNat, stackModeField, valueField, stackImmField, toNat_field, toNat_field, toNat_field]
  omega

theorem encode_stackReserved_eq {w : Word} (h : opcodeField w = 0xC#4) (hm : stackModeField w = 3) :
    encode (.stackReserved (w.extractLsb' 0 10)) = w := by
  apply BitVec.eq_of_toNat_eq
  have hop := toNat_opcodeField w
  rw [h, BitVec.toNat_ofNat] at hop
  have hmode := congrArg BitVec.toNat hm
  rw [stackModeField, toNat_field, show BitVec.toNat 3 = 3 from rfl] at hmode
  rw [encode_stackReserved_toNat, toNat_field]
  omega

theorem encodeB_eq {w : Word} (h : opcodeField w = 0xE#4) : encodeB (condField w) (off9Field w) = w := by
  apply BitVec.eq_of_toNat_eq
  have hop := toNat_opcodeField w
  rw [h, BitVec.toNat_ofNat] at hop
  rw [encodeB_toNat, toNat_condField_bits, off9Field, toNat_field]
  omega

theorem encodeF_eq {w : Word} (h : opcodeField w = 0xF#4) : encodeF (BitVec.ofBool (retBit w)) (off11Field w) = w := by
  apply BitVec.eq_of_toNat_eq
  have hop := toNat_opcodeField w
  rw [h, BitVec.toNat_ofNat] at hop
  rw [encodeF_toNat, off11Field, retBit, toNat_field, toNat_ofBool_getLsbD]
  omega

/-! ### Encoding what a word decodes to -/

theorem mode_cases (m : BitVec 2) : m = 0 ∨ m = 1 ∨ m = 2 ∨ m = 3 := by
  revert m
  decide

theorem encode_decodeShift {w : Word} (h : opcodeField w = 0x8#4) : encode (decodeShift w) = w := by
  have hw := encodeS_eq h
  rw [decodeShift]
  rcases mode_cases (shiftModeField w) with hm | hm | hm | hm <;> cases hb : immediateBit w <;> rw [hm, hb] at hw <;>
    rw [hm] <;> exact hw

theorem encode_decodeStack {w : Word} (h : opcodeField w = 0xC#4) : encode (decodeStack w) = w := by
  have hw := encodeK_eq h
  rw [decodeStack]
  rcases mode_cases (stackModeField w) with hm | hm | hm | hm
  case inr.inr.inr =>
    rw [hm]
    exact encode_stackReserved_eq h hm
  all_goals
    rw [hm] at hw ⊢
    exact hw

/-- The branches are those of `decode`: the opcode alone, with the immediate bit (format A), with the mode and the
immediate bit (format S), with the mode (formats K and F). -/
@[simp] theorem encode_decode (w : Word) : encode (decode w) = w := by
  have hM := encodeM_eq w
  rw [decode]
  cases hop : Opcode.ofBits (opcodeField w) with
  | hlt => exact encodeN_eq (opcodeField_of_ofBits hop)
  | shf => exact encode_decodeShift (opcodeField_of_ofBits hop)
  | stack => exact encode_decodeStack (opcodeField_of_ofBits hop)
  | br => exact encodeB_eq (opcodeField_of_ofBits hop)
  | ld | st | cmp =>
    rw [opcodeField_of_ofBits hop] at hM
    exact hM
  | func =>
    have hF := encodeF_eq (opcodeField_of_ofBits hop)
    cases hb : retBit w <;> rw [hb] at hF <;> exact hF
  | add | sub | mul | div | and | or | xor | mov =>
    cases hb : immediateBit w with
    | true =>
      have hA := encodeAImm_eq hb
      rw [opcodeField_of_ofBits hop] at hA
      exact hA
    | false =>
      have hA := encodeAReg_eq hb
      rw [opcodeField_of_ofBits hop] at hA
      exact hA

/-! ### The rows of the opcode table (R62) -/

/-- The word of every instruction fits its own row: `Laws.RowMatch`, collected. -/
theorem matchesRow_encode (i : Instr) : matchesRow (encode i) i.row = true := by
  cases i with
  | hlt => exact Laws.RowMatch.hlt _
  | addReg => exact Laws.RowMatch.addReg _ _ _
  | addImm => exact Laws.RowMatch.addImm _ _
  | subReg => exact Laws.RowMatch.subReg _ _ _
  | subImm => exact Laws.RowMatch.subImm _ _
  | mulReg => exact Laws.RowMatch.mulReg _ _ _
  | mulImm => exact Laws.RowMatch.mulImm _ _
  | divReg => exact Laws.RowMatch.divReg _ _ _
  | divImm => exact Laws.RowMatch.divImm _ _
  | andReg => exact Laws.RowMatch.andReg _ _ _
  | andImm => exact Laws.RowMatch.andImm _ _
  | orReg => exact Laws.RowMatch.orReg _ _ _
  | orImm => exact Laws.RowMatch.orImm _ _
  | xorReg => exact Laws.RowMatch.xorReg _ _ _
  | xorImm => exact Laws.RowMatch.xorImm _ _
  | shlReg => exact Laws.RowMatch.shlReg _ _
  | shlImm => exact Laws.RowMatch.shlImm _ _
  | shrReg => exact Laws.RowMatch.shrReg _ _
  | shrImm => exact Laws.RowMatch.shrImm _ _
  | sarReg => exact Laws.RowMatch.sarReg _ _
  | sarImm => exact Laws.RowMatch.sarImm _ _
  | rorReg => exact Laws.RowMatch.rorReg _ _
  | rorImm => exact Laws.RowMatch.rorImm _ _
  | movReg => exact Laws.RowMatch.movReg _ _ _
  | movImm => exact Laws.RowMatch.movImm _ _
  | ld => exact Laws.RowMatch.ld _ _ _
  | st => exact Laws.RowMatch.st _ _ _
  | pushReg => exact Laws.RowMatch.pushReg _ _
  | pop => exact Laws.RowMatch.pop _ _
  | pushImm => exact Laws.RowMatch.pushImm _ _
  | stackReserved => exact Laws.RowMatch.stackReserved _
  | cmp => exact Laws.RowMatch.cmp _ _ _
  | br => exact Laws.RowMatch.br _ _
  | call => exact Laws.RowMatch.call _
  | ret => exact Laws.RowMatch.ret _

/-- No word matches two rows: every two rows ask for different values of some bit that both masks look at. -/
theorem opcodeTable_pairwise : opcodeTable.Pairwise fun a b => b.1 &&& a.2 ≠ a.1 &&& b.2 := by
  decide

theorem matchesRow_spec {w : Word} {k : Nat} (h : matchesRow w k = true) :
    ∃ mask value, opcodeTable[k]? = some (mask, value) ∧ w &&& mask = value := by
  unfold matchesRow at h
  split at h
  · exact ⟨_, _, ‹_›, beq_iff_eq.mp h⟩
  · cases h

theorem not_matchesRow_of_lt {w : Word} {j k : Nat} (hjk : j < k) (hj : matchesRow w j = true) :
    ¬matchesRow w k = true := by
  intro hk
  obtain ⟨mj, vj, hgj, rfl⟩ := matchesRow_spec hj
  obtain ⟨mk, vk, hgk, rfl⟩ := matchesRow_spec hk
  obtain ⟨hlj, ej⟩ := List.getElem?_eq_some_iff.mp hgj
  obtain ⟨hlk, ek⟩ := List.getElem?_eq_some_iff.mp hgk
  have hne := List.pairwise_iff_getElem.mp opcodeTable_pairwise j k hlj hlk hjk
  rw [ej, ek] at hne
  apply hne
  show mk &&& (w &&& mj) = mj &&& (w &&& mk)
  rw [BitVec.and_comm mk, BitVec.and_comm mj, BitVec.and_assoc, BitVec.and_assoc, BitVec.and_comm mj]

theorem matchesRow_unique {w : Word} {j k : Nat} (hj : matchesRow w j = true) (hk : matchesRow w k = true) : j = k := by
  rcases Nat.lt_trichotomy j k with h | h | h
  · exact absurd hk (not_matchesRow_of_lt h hj)
  · exact h
  · exact absurd hj (not_matchesRow_of_lt h hk)

theorem matchesRow_decode (w : Word) : matchesRow w (decode w).row = true := by
  simpa using matchesRow_encode (decode w)

namespace Machine

/-- Settles O40: `decode_encode` by the fields each format holds, `encode_decode` by each format's word from its
fields. -/
theorem decodeAndEncodeAreInverse : Obligations.DecodeAndEncodeAreInverse := ⟨decode_encode, encode_decode⟩

/-- Settles O41: the row of what a word decodes to matches it, and no other row does. -/
theorem opcodeTableRowsPartitionTheWords : Obligations.OpcodeTableRowsPartitionTheWords := by
  intro w k _
  constructor
  · intro h
    exact matchesRow_unique (matchesRow_decode w) h
  · rintro rfl
    exact matchesRow_decode w

/-- Settles O43, by decoding each of the nine words. -/
theorem writtenOutWordsDecode : Obligations.WrittenOutWordsDecode := by
  unfold Obligations.WrittenOutWordsDecode
  decide

end Machine
end Sys2Proof
end

section
/-! What holds of the machine as a whole, from the ten effects of an execute phase: the frame of each instruction, the
faults and when they are taken, the two states Running and Halted, runs, the protected range and the invariant
(10_state.md, 20_memory.md, 60_exceptions.md). -/

namespace Sys2Proof.Machine

/-! ### Taking a fault (60_exceptions.md sections 1 to 3) -/

/-- The table of R121 read forwards: where it has a row, `exec` raises that row's fault. -/
theorem exec_of_faultCondition {i : Instr} {s : State} {cause : FaultCause} {info : Word}
    (h : faultCondition i s cause info) : exec i s = .next (raiseFault ⟨cause, info⟩ (encode i) s) := by
  cases cause with
  | unknownOpcode =>
    obtain ⟨rfl, ign, rfl⟩ := h
    rfl
  | protectedAccess =>
    obtain ⟨hlo, hhi, r, rb, off, hi, rfl⟩ := h
    have hp := (isProtected_iff _).mpr ⟨hlo, hhi⟩
    rcases hi with rfl | rfl
    · rw [exec, execLd, dataAddress_error hp]
      rfl
    · rw [exec, execSt, dataAddress_error hp]
      rfl
  | stackOverflow =>
    obtain ⟨rfl, hlt, ⟨idx, ign, rfl, hx⟩ | ⟨val, ign, rfl⟩ | ⟨off, rfl⟩⟩ := h
    · rw [exec, execPushReg, wideRegIndex_ok hx]
      show complete _ _ (push _ s) = _
      rw [push_error _ hlt]
      rfl
    · rw [exec, execPushImm, push_error _ hlt]
      rfl
    · rw [exec, execCall, push_error _ hlt]
      rfl
  | stackUnderflow =>
    obtain ⟨rfl, hsp, ⟨idx, ign, rfl, hx⟩ | ⟨ign, rfl⟩⟩ := h
    · rw [exec, execPop, wideRegIndex_ok hx, hsp]
      show complete _ _ ((popWord s).map _) = _
      rw [popWord_error hsp]
      rfl
    · rw [exec, execRet, popWord_error hsp, hsp]
      rfl
  | divideByZero =>
    obtain ⟨rfl, ⟨rd, rs, ign, rfl, hb⟩ | ⟨rd, rfl⟩⟩ := h
    · rw [exec, execDivReg, regOperand, hb, divide_error]
      rfl
    · rfl
  | registerIndexOutOfRange =>
    rcases h with ⟨rd, idx, hi, hx, hinfo⟩ | ⟨idx, ign, hi, hx, hinfo⟩
    · obtain rfl : idx.setWidth 16 = info := BitVec.eq_of_toNat_eq (by rw [setWidth16_toNat (by omega), hinfo])
      rcases hi with rfl | rfl | rfl | rfl <;> exact congrArg (complete _ s) (shiftByReg_error hx _ rd s)
    · obtain rfl : idx.setWidth 16 = info := BitVec.eq_of_toNat_eq (by rw [setWidth16_toNat (by omega), hinfo])
      rcases hi with rfl | rfl
      · rw [exec, execPushReg, wideRegIndex_error hx]
        rfl
      · rw [exec, execPop, wideRegIndex_error hx]
        rfl

/-- What the table says is raised, is what raising leaves (R120). -/
theorem trapsWith_of_faultCondition {i : Instr} {s : State} {cause : FaultCause} {info : Word}
    (h : faultCondition i s cause info) : trapsWith cause info (encode i) s (exec i s) :=
  ⟨_, exec_of_faultCondition h, raiseFault_trapped ⟨cause, info⟩ (encode i) s⟩

/-- An execute phase takes a fault of the table or leaves the fault record as it is. -/
theorem exec_trap_or_fault_eq {i : Instr} {s t : State} (h : exec i s = .next t) :
    (∃ cause info, faultCondition i s cause info ∧ t = raiseFault ⟨cause, info⟩ (encode i) s) ∨ t.fault = s.fault := by
  cases exec_effect h with
  | trap cause info hc => exact .inl ⟨cause, info, hc, rfl⟩
  | br => exact .inr (by split <;> rfl)
  | _ => exact .inr rfl

/-- A recorded fault, none being recorded before, is one of the table. -/
theorem faultCondition_of_exec {i : Instr} {s t : State} {r : FaultRecord} (h : exec i s = .next t)
    (hs : s.fault = none) (hr : t.fault = some r) :
    faultCondition i s r.cause r.info ∧ t = raiseFault ⟨r.cause, r.info⟩ (encode i) s := by
  rcases exec_trap_or_fault_eq h with ⟨cause, info, hc, rfl⟩ | hf
  · cases hr
    exact ⟨hc, rfl⟩
  · rw [hf, hs] at hr
    cases hr

/-- Settles O23: `faultCondition_of_exec` one way; the other way what the table says is what `exec` does. -/
theorem faultConditionsAreExactlyTheTable : Obligations.FaultConditionsAreExactlyTheTable := by
  intro i s t h hs cause info
  constructor
  · rintro ⟨r, hr, rfl, rfl⟩
    exact (faultCondition_of_exec h hs hr).1
  · intro hc
    rw [exec_of_faultCondition hc] at h
    cases h
    exact ⟨_, rfl, rfl, rfl⟩

/-- A well-formed instruction meets no decode check: its mode is not reserved and its index names a register. -/
theorem not_decode_cause_of_wellFormed {i : Instr} {s : State} {cause : FaultCause} {info : Word}
    (hw : i.wellFormed = true) (h : faultCondition i s cause info) :
    cause ≠ .unknownOpcode ∧ cause ≠ .registerIndexOutOfRange := by
  constructor
  · rintro rfl
    obtain ⟨_, ign, rfl⟩ := h
    cases hw
  · rintro rfl
    rcases h with ⟨rd, idx, rfl | rfl | rfl | rfl, hx, _⟩ | ⟨idx, ign, rfl | rfl, hx, _⟩ <;>
      simp only [Instr.wellFormed, decide_eq_true_eq, Bool.and_eq_true] at hw <;>
      omega

/-- Settles O24: a fault recorded by an execute phase is of the table, and a well-formed instruction is in neither
row. -/
theorem conformingInstructionsPassDecodeChecks : Obligations.ConformingInstructionsPassDecodeChecks := by
  intro i s t r hw hs h hr
  exact not_decode_cause_of_wellFormed hw (faultCondition_of_exec h hs hr).1

/-- Settles O22: a step that changes the record takes a fault in the state after the fetch, of the word fetched. -/
theorem faultsArePrecise : Obligations.FaultsArePrecise := by
  intro s t h hne
  rcases step_cases h with ⟨_, rfl⟩ | ⟨hr, hx⟩
  · exact absurd rfl hne
  · rcases exec_trap_or_fault_eq hx with ⟨cause, info, _, rfl⟩ | hf
    · exact ⟨hr, rfl, ⟨cause, info, by simp⟩, rfl, rfl, rfl, rfl⟩
    · exact absurd hf hne

/-! ### Frames (R23) -/

theorem sameRegsExcept_setReg (s : State) {rs : List Reg} {rd : Reg} (v : Word) (h : rd ∈ rs) :
    sameRegsExcept rs s (s.setReg rd v) := fun _ hq => State.reg_setReg_ne s v fun e => hq (e ▸ h)

theorem sameMemExcept_writeMem (s : State) (a v : Word) : sameMemExcept [a] s (s.writeMem a v) :=
  fun _ hb => State.readMem_writeMem_ne s v (by simpa using hb)

theorem exec_regs_frame {i : Instr} {s t : State} (h : exec i s = .next t) : sameRegsExcept i.writes s t := by
  cases exec_effect h with
  | reg rd v hw => exact sameRegsExcept_setReg s v hw
  | push v hi =>
    have hw : Reg.r0 ∈ i.writes := by
      rcases hi with ⟨_, _, rfl⟩ | ⟨_, _, rfl⟩ <;> simp [Instr.writes]
    exact sameRegsExcept_setReg (s.writeMem _ v) _ hw
  | call off hi =>
    subst hi
    exact sameRegsExcept_setReg (s.writeMem _ s.pc) _ (by simp [Instr.writes])
  | ret ign hi =>
    subst hi
    exact sameRegsExcept_setReg s _ (by simp [Instr.writes])
  | pop idx ign hi hx =>
    subst hi
    intro q hq
    simp only [Instr.writes, if_pos hx, List.mem_cons, List.not_mem_nil, or_false, not_or] at hq
    rw [State.reg_setReg_ne _ _ hq.2, State.reg_setReg_ne _ _ hq.1]
  | br c off =>
    intro q _
    split <;> rfl
  | _ => exact fun _ _ => rfl

theorem exec_mem_frame {i : Instr} {s t : State} (h : exec i s = .next t) : sameMemExcept (i.stores s) s t := by
  cases exec_effect h with
  | store rs rb off hi =>
    subst hi
    exact sameMemExcept_writeMem s _ _
  | push v hi =>
    have hw : i.stores s = [s.reg .r0] := by
      rcases hi with ⟨_, _, rfl⟩ | ⟨_, _, rfl⟩ <;> rfl
    rw [hw]
    exact sameMemExcept_writeMem s _ v
  | call off hi =>
    subst hi
    exact sameMemExcept_writeMem s _ _
  | br c off =>
    intro a _
    split <;> rfl
  | _ => exact fun _ _ => rfl

theorem exec_pc_frame {i : Instr} {s t : State} (h : exec i s = .next t) (hpc : t.pc ≠ s.pc) :
    (∃ c off, i = .br c off) ∨ (∃ off, i = .call off) ∨ ∃ ign, i = .ret ign := by
  cases exec_effect h with
  | br c off hi => exact .inl ⟨c, off, hi⟩
  | call off hi => exact .inr (.inl ⟨off, hi⟩)
  | ret ign hi => exact .inr (.inr ⟨ign, hi⟩)
  | _ => exact absurd rfl hpc

/-- Settles O28, each frame by the effects of the execute phase. -/
theorem instructionFrames : Obligations.InstructionFrames :=
  fun _ _ _ h => ⟨exec_regs_frame h, exec_mem_frame h, exec_pc_frame h⟩

/-! ### Running and Halted (R16) -/

/-- An execute phase clears `running` by HLT or by taking a fault, and sets it never. -/
theorem exec_running_false_iff {i : Instr} {s t : State} (h : exec i s = .next t) (hr : s.running = true)
    (hs : s.fault = none) : t.running = false ↔ (∃ ign, i = .hlt ign) ∨ t.fault ≠ none := by
  have goes_on {u : State} (hru : u.running = s.running) (hfu : u.fault = s.fault) (hi : ∀ ign, i ≠ .hlt ign) :
      u.running = false ↔ (∃ ign, i = .hlt ign) ∨ u.fault ≠ none := by
    simp [hru, hr, hfu, hs, hi]
  cases exec_effect h with
  | trap => simp
  | halt ign hi => exact iff_of_true rfl (.inl ⟨ign, hi⟩)
  | reg rd v hw =>
    refine goes_on rfl rfl fun ign hi => ?_
    subst hi
    simp [Instr.writes] at hw
  | push v hi => exact goes_on rfl rfl (by rcases hi with ⟨_, _, rfl⟩ | ⟨_, _, rfl⟩ <;> simp)
  | br c off hi => exact goes_on (by split <;> rfl) (by split <;> rfl) (by simp [hi])
  | store _ _ _ hi | pop _ _ hi | cmp _ _ _ hi | call _ hi | ret _ hi => exact goes_on rfl rfl (by simp [hi])

/-- Settles O27: reset by its value, Halted by `step_halted`, Running by `exec_running_false_iff`. -/
theorem runningAndHaltedTransitions : Obligations.RunningAndHaltedTransitions := by
  refine ⟨rfl, fun s t h hr => ?_, fun s t h hr hs => ?_⟩
  · rw [step_halted hr] at h
    cases h
    rfl
  · rw [step_running hr] at h
    exact exec_running_false_iff h hr hs

end Sys2Proof.Machine
end

section
/-! CMP (46_cmp.md R105, R106) and what the ordered conditions of BR make of its flags (47_branch.md R108). Each flag is
stated by arithmetic on the operands; the flag invariant and the condition laws follow from that alone. -/

namespace Sys2Proof.Machine

/-! ### The four flags as arithmetic -/

/-- The two's complement reading of a word, by its sign (R7). -/
theorem toInt_cases (a : Word) :
    a.toNat < 32768 ∧ a.toInt = a.toNat ∨ 32768 ≤ a.toNat ∧ a.toInt = a.toNat - 65536 := by
  rw [BitVec.toInt_eq_toNat_cond]
  split <;> omega

theorem msb_iff (a : Word) : a.msb = true ↔ 32768 ≤ a.toNat := by
  rw [BitVec.msb_eq_decide, decide_eq_true_iff]

theorem toNat_sub_int (a b : Word) : ((a - b).toNat : Int) = (a.toNat - b.toNat : Int) % 65536 := by
  have ha := a.isLt
  have hb := b.isLt
  rw [BitVec.toNat_sub]
  omega

theorem compareFlags_z (a b : Word) : (compareFlags a b).z = true ↔ a = b := by
  show (a - b == 0) = true ↔ a = b
  rw [beq_iff_eq]
  constructor
  · intro h
    apply BitVec.eq_of_toNat_eq
    have hd := toNat_sub_int a b
    have ha := a.isLt
    have hb := b.isLt
    rw [h, show BitVec.toNat (0 : Word) = 0 from rfl] at hd
    omega
  · rintro rfl
    exact BitVec.sub_self a

theorem compareFlags_n (a b : Word) :
    (compareFlags a b).n = true ↔ 32768 ≤ (a.toNat - b.toNat : Int) % 65536 := by
  rw [← toNat_sub_int]
  exact (msb_iff (a - b)).trans (by omega)

theorem compareFlags_c (a b : Word) : (compareFlags a b).c = true ↔ a.toNat < b.toNat := by
  show decide (a < b) = true ↔ _
  rw [decide_eq_true_iff, BitVec.lt_def]

/-- The formula of `V` with the operands' signs written out (R105). -/
theorem compareFlags_v_signs (a b : Word) :
    (compareFlags a b).v = true ↔
      ¬(32768 ≤ a.toNat ↔ 32768 ≤ b.toNat) ∧ ¬(32768 ≤ (a.toNat - b.toNat : Int) % 65536 ↔ 32768 ≤ a.toNat) := by
  show (a.msb != b.msb && (a - b).msb != a.msb) = true ↔ _
  rw [← compareFlags_n, ← msb_iff a, ← msb_iff b]
  show _ ↔ _ ∧ ¬((a - b).msb = true ↔ _)
  rw [Bool.and_eq_true, bne_iff_ne, bne_iff_ne, Ne, Ne, Bool.eq_iff_iff (a := a.msb),
    Bool.eq_iff_iff (a := (a - b).msb)]

/-- `V` is set exactly when the true signed difference is no 16-bit number (R106). -/
theorem compareFlags_v (a b : Word) :
    (compareFlags a b).v = true ↔ a.toInt - b.toInt < -32768 ∨ 32767 < a.toInt - b.toInt := by
  rw [compareFlags_v_signs]
  have ha := a.isLt
  have hb := b.isLt
  rcases toInt_cases a with ⟨ha', ea⟩ | ⟨ha', ea⟩ <;> rcases toInt_cases b with ⟨hb', eb⟩ | ⟨hb', eb⟩ <;>
    rw [ea, eb] <;> omega

/-- Settles O16: the effect is a write of the flags, each by its arithmetic above. -/
theorem compareWritesTheFourFlags : Obligations.CompareWritesTheFourFlags := fun s ra rb _ =>
  ⟨s.setFlags (compareFlags (s.reg ra) (s.reg rb)), rfl, compareFlags_z _ _, compareFlags_n _ _, compareFlags_c _ _,
    compareFlags_v _ _, fun _ _ => rfl, fun _ _ => rfl, rfl, rfl, rfl⟩

/-! ### The flags a CMP can leave -/

theorem compareFlags_reachable (a b : Word) : (compareFlags a b).reachable := by
  have ha := a.isLt
  have hb := b.isLt
  constructor
  · intro hz
    obtain rfl := (compareFlags_z a b).mp hz
    refine ⟨Bool.eq_false_iff.mpr fun h => ?_, Bool.eq_false_iff.mpr fun h => ?_, Bool.eq_false_iff.mpr fun h => ?_⟩
    · rw [compareFlags_n] at h
      omega
    · rw [compareFlags_c] at h
      omega
    · rw [compareFlags_v] at h
      omega
  · intro hv
    rw [compareFlags_v_signs] at hv
    rw [Bool.eq_iff_iff, compareFlags_n, compareFlags_c]
    omega

/-! ### The conditions after a CMP (R108) -/

/-- `N` is the signed order of the operands, turned round when `V` is set. -/
theorem compareFlags_n_signed (a b : Word) :
    (compareFlags a b).n = true ↔ if (compareFlags a b).v then b.toInt < a.toInt else a.toInt < b.toInt := by
  have ha := a.isLt
  have hb := b.isLt
  have ha' := toInt_cases a
  have hb' := toInt_cases b
  rw [compareFlags_n]
  split_ifs with hv <;> rw [compareFlags_v] at hv <;> omega

/-- No order holds of equal operands, and their difference fits. -/
theorem compareFlags_z_signed (a b : Word) : (compareFlags a b).z = true ↔ a.toInt = b.toInt := by
  rw [compareFlags_z, BitVec.toInt_inj]

/-- Settles O49: the conditions read `Z` and `N`, which say equality and, by `V`, the order or its opposite. -/
theorem orderedConditionsIgnoreOverflow : Obligations.OrderedConditionsIgnoreOverflow := by
  intro a b
  have hz := compareFlags_z_signed a b
  have hn := compareFlags_n_signed a b
  refine ⟨compareFlags_z a b, ?_, ?_⟩
  · rw [Ne, ← compareFlags_z, condHolds, Bool.not_eq_true', Bool.not_eq_true]
  · have hlt : condHolds (compareFlags a b) .lt = true ↔ (compareFlags a b).n = true := Iff.rfl
    have hgt : condHolds (compareFlags a b) .gt = true ↔
        ¬(compareFlags a b).n = true ∧ ¬(compareFlags a b).z = true := by simp [condHolds]
    have hle : condHolds (compareFlags a b) .le = true ↔
        (compareFlags a b).n = true ∨ (compareFlags a b).z = true := by simp [condHolds]
    have hge : condHolds (compareFlags a b) .ge = true ↔
        ¬(compareFlags a b).n = true ∨ (compareFlags a b).z = true := by simp [condHolds]
    rw [hlt, hgt, hle, hge, hz, hn]
    split_ifs with hv
    · have hne : a.toInt ≠ b.toInt := by
        rw [compareFlags_v] at hv
        omega
      omega
    · omega

end Sys2Proof.Machine
end

section
/-! What every step keeps, and what every run is (10_state.md section 7): the invariant, the protected range, runs of
any length, and the bits the engine does not examine. -/

namespace Sys2Proof.Machine

/-! ### The invariant -/

/-- The record of a fault of the table is consistent, whatever its address: each row names the instruction, and the
format of its word holds the opcode. -/
theorem consistent_of_faultCondition {i : Instr} {s : State} {cause : FaultCause} {info : Word}
    (h : faultCondition i s cause info) (a : Word) : FaultRecord.consistent ⟨cause, a, encode i, info⟩ := by
  cases cause with
  | unknownOpcode =>
    obtain ⟨hinfo, ign, rfl⟩ := h
    obtain ⟨hop, hmode, _⟩ := encode_stackReserved_fields ign
    exact ⟨hinfo, hop, hmode⟩
  | protectedAccess =>
    obtain ⟨hlo, hhi, r, rb, off, rfl | rfl, _⟩ := h
    · exact ⟨hlo, hhi, .inl (encodeM_fields 0xA#4 r rb off).1⟩
    · exact ⟨hlo, hhi, .inr (encodeM_fields 0xB#4 r rb off).1⟩
  | stackOverflow =>
    obtain ⟨_, hlt, ⟨idx, ign, rfl, _⟩ | ⟨val, ign, rfl⟩ | ⟨off, rfl⟩⟩ := h
    · exact ⟨hlt, .inl (encodeK_fields 0#2 idx ign).1⟩
    · exact ⟨hlt, .inl (encodeK_fields 2#2 val ign).1⟩
    · exact ⟨hlt, .inr (encodeF_fields 0#1 off).1⟩
  | stackUnderflow =>
    obtain ⟨_, hsp, ⟨idx, ign, rfl, _⟩ | ⟨ign, rfl⟩⟩ := h
    · exact ⟨hsp, .inl (encodeK_fields 1#2 idx ign).1⟩
    · exact ⟨hsp, .inr (encodeF_fields 1#1 ign).1⟩
  | divideByZero =>
    obtain ⟨hinfo, ⟨rd, rs, ign, rfl, _⟩ | ⟨rd, rfl⟩⟩ := h
    · exact ⟨hinfo, (encodeAReg_fields 0x4#4 rd rs ign).1⟩
    · exact ⟨hinfo, (encodeAImm_fields 0x4#4 rd 0).1⟩
  | registerIndexOutOfRange =>
    rcases h with ⟨rd, idx, hi, hx, hinfo⟩ | ⟨idx, ign, hi, hx, hinfo⟩
    · refine ⟨hinfo ▸ hx, .inl ?_⟩
      rcases hi with rfl | rfl | rfl | rfl <;> exact (encodeS_fields rd idx _ 0#1).1
    · refine ⟨hinfo ▸ hx, .inr ?_⟩
      rcases hi with rfl | rfl <;> exact (encodeK_fields _ idx ign).1

theorem exec_mem_wf {i : Instr} {s t : State} (h : exec i s = .next t) (hs : s.mem.wf = true) : t.mem.wf = true := by
  cases exec_effect h with
  | store | push | call => exact State.wf_writeMem hs _ _
  | br =>
    split <;> exact hs
  | _ => exact hs

theorem exec_flags_reachable {i : Instr} {s t : State} (h : exec i s = .next t) (hs : s.flags.reachable) :
    t.flags.reachable := by
  by_cases hc : i.isCmp
  · obtain ⟨ra, rb, ign, rfl⟩ := hc
    cases h
    exact compareFlags_reachable _ _
  · rw [exec_flags h hc]
    exact hs

/-- An execute phase begun with no fault recorded keeps the invariant: a fault it takes is of the table. -/
theorem exec_inv {i : Instr} {s t : State} (h : exec i s = .next t) (hmem : s.mem.wf = true)
    (hflags : s.flags.reachable) (hs : s.fault = none) : t.Inv := by
  refine ⟨exec_mem_wf h hmem, exec_flags_reachable h hflags, fun r hr => ?_⟩
  obtain ⟨hc, rfl⟩ := faultCondition_of_exec h hs hr
  rw [raiseFault_fault, Option.some.injEq] at hr
  rw [← hr]
  exact ⟨rfl, consistent_of_faultCondition hc _, BitVec.sub_add_cancel _ _⟩

/-- Settles O35: in Halted nothing changes; in Running no fault is recorded, and the execute phase keeps the rest. -/
theorem everyStepKeepsTheInvariant : Obligations.EveryStepKeepsTheInvariant := by
  intro s t hinv h
  rcases step_cases h with ⟨_, rfl⟩ | ⟨hr, hx⟩
  · exact hinv
  · obtain ⟨hmem, hflags, hfault⟩ := hinv
    have hs : s.fault = none := by
      cases hf : s.fault with
      | none => rfl
      | some r => exact absurd hr (by simp [(hfault r hf).1])
    exact exec_inv hx hmem hflags hs

/-- The reset state meets the invariant: no cell, no flag, no fault. -/
theorem State.reset_inv : State.reset.Inv :=
  ⟨State.reset_wf, ⟨fun h => (Bool.noConfusion h), fun h => (Bool.noConfusion h)⟩, fun _ h => (by cases h)⟩

/-- Settles O34, by the reset values. -/
theorem invariantHoldsAtReset : Obligations.InvariantHoldsAtReset := State.reset_inv

/-! ### Runs (R20, R21, R145) -/

/-- A property that every step keeps holds at the end of every run from a state that has it. -/
theorem core_run_induction {P : State → Prop} (hstep : ∀ s t, P s → step s = .next t → P t) {k : Nat} {s t : State}
    (hs : P s) (h : core.run k s = .next t) : P t := by
  induction k generalizing s with
  | zero =>
    cases h
    exact hs
  | succ k ih =>
    obtain ⟨u, hu⟩ := step_total s
    rw [core_run_succ hu] at h
    exact ih (hstep s u hs hu) h

/-- Settles O30: a step in Halted stays, by induction on the number of steps. -/
theorem haltedForEver : Obligations.HaltedForEver := by
  intro k s hr
  induction k with
  | zero => rfl
  | succ k ih =>
    rw [core_run_succ (step_halted hr)]
    exact ih

theorem core_run_add (m n : Nat) (s : State) : ∃ t, core.run m s = .next t ∧ core.run (m + n) s = core.run n t := by
  induction m generalizing s with
  | zero => exact ⟨s, rfl, by rw [Nat.zero_add]⟩
  | succ m ih =>
    obtain ⟨u, hu⟩ := step_total s
    obtain ⟨t, ht, hadd⟩ := ih u
    refine ⟨t, ?_, ?_⟩
    · rw [core_run_succ hu, ht]
    · rw [Nat.succ_add, core_run_succ hu, hadd]

/-- Settles O31: the first step by `step_running`, Halted by `haltedForEver`, batches by `core_run_add`. -/
theorem runsExecuteOneInstructionAStep : Obligations.RunsExecuteOneInstructionAStep := by
  refine ⟨fun k s hr => ?_, fun k s hr => haltedForEver (k + 1) s hr, core_run_add⟩
  obtain ⟨t, ht⟩ := step_total s
  refine ⟨t, ?_, core_run_succ ht k⟩
  rw [step_running hr] at ht
  exact ht

/-- Settles O32: the state after the fetch is the one before it with the pc advanced. -/
theorem stepExecutesTheDecodedInstruction : Obligations.StepExecutesTheDecodedInstruction := by
  rintro s i hr rfl
  refine ⟨advancePc s, step_running hr, ?_, rfl, rfl, hr, rfl, rfl⟩
  rw [advancePc_pc, BitVec.toNat_add]
  rfl

/-! ### The protected range (R36) -/

/-- A store of any kind misses the protected range: ST by its check, PUSH and CALL because SP is in the stack range. -/
theorem exec_keeps_protected {i : Instr} {s t : State} (h : exec i s = .next t) {a : Word}
    (ha : isProtected a = true) : t.readMem a = s.readMem a := by
  have not_stack (hsp : 0xF000 ≤ (s.reg .r0).toNat) : a ≠ s.reg .r0 := by
    rintro rfl
    have := (isProtected_iff _).mp ha
    omega
  cases exec_effect h with
  | store rs rb off hi hp =>
    refine State.readMem_writeMem_ne s _ ?_
    rintro rfl
    rw [hp] at ha
    cases ha
  | push v hi hsp => exact State.readMem_writeMem_ne s v (not_stack hsp)
  | call off hi hsp => exact State.readMem_writeMem_ne s s.pc (not_stack hsp)
  | br => split <;> rfl
  | _ => rfl

theorem step_keeps_protected {s t : State} (h : step s = .next t) {a : Word} (ha : isProtected a = true) :
    t.readMem a = s.readMem a := by
  rcases step_cases h with ⟨_, rfl⟩ | ⟨_, hx⟩
  · rfl
  · exact exec_keeps_protected hx ha

/-- Settles O29: what a protected address read at the start is kept by every step, so by every run. -/
theorem protectedRangeNeverChanges : Obligations.ProtectedRangeNeverChanges := by
  intro k s t h a hlo hhi
  have ha := (isProtected_iff a).mpr ⟨hlo, hhi⟩
  exact core_run_induction (P := fun u => u.readMem a = s.readMem a)
    (fun _ _ hu hstep => (step_keeps_protected hstep ha).trans hu) rfl h

/-! ### Ignored bits (R62) -/

theorem sameButFaultWord_refl (s : State) : sameButFaultWord s s := ⟨rfl, rfl, rfl, rfl, rfl, rfl⟩

/-- The word an execute phase is told reaches the fault record and nothing else. -/
theorem complete_sameButFaultWord {w w' : Word} {s t u : State} {r : Except Trap State}
    (ht : complete w s r = .next t) (hu : complete w' s r = .next u) : sameButFaultWord t u := by
  cases r <;> cases ht <;> cases hu
  · exact ⟨rfl, rfl, rfl, rfl, rfl, rfl⟩
  · exact sameButFaultWord_refl _

/-- Settles O42: the ignored bits reach a meaning through the word it may record only. -/
theorem ignoredBitsDoNotMatter : Obligations.IgnoredBitsDoNotMatter := by
  intro i s t u ht hu
  cases i with
  | divReg | pushReg | pop | pushImm | ret => exact complete_sameButFaultWord ht hu
  | stackReserved => exact complete_sameButFaultWord (r := .error ⟨.unknownOpcode, 0xC⟩) ht hu
  | _ =>
    cases ht.symm.trans hu
    exact sameButFaultWord_refl t

end Sys2Proof.Machine
end

section
/-! The ALU, the shifts and MOV (41_alu.md, 42_shift.md, 43_mov.md): the execute phase writes one register, so a
statement about one of these instructions is a fact about the value written; where an instruction can raise, its other
side is a row of the table of causes. -/

namespace Sys2Proof.Machine

/-! ### Logic, R86 to R88 -/

theorem decode_of_opcodeField_and {w : Word} (h : opcodeField w = 0x5) : decode w =
    if immediateBit w then .andImm (rdField w) (imm8Field w) else .andReg (rdField w) (rsField w) (aluIgnored w) := by
  rw [decode, h]
  rfl

theorem decode_of_opcodeField_or {w : Word} (h : opcodeField w = 0x6) : decode w =
    if immediateBit w then .orImm (rdField w) (imm8Field w) else .orReg (rdField w) (rsField w) (aluIgnored w) := by
  rw [decode, h]
  rfl

theorem decode_of_opcodeField_xor {w : Word} (h : opcodeField w = 0x7) : decode w =
    if immediateBit w then .xorImm (rdField w) (imm8Field w) else .xorReg (rdField w) (rsField w) (aluIgnored w) := by
  rw [decode, h]
  rfl

/-- Settles O2: the words by the opcode map; the value written is the bitwise one, and an immediate operand has the
immediate's own bits. -/
theorem bitwiseLogicWritesRdBitByBit : Obligations.BitwiseLogicWritesRdBitByBit := by
  refine ⟨fun w => ⟨decode_of_opcodeField_and, decode_of_opcodeField_or, decode_of_opcodeField_xor⟩,
    fun s rd rs ign imm => ⟨?_, ?_, ?_, ?_, ?_, ?_⟩⟩
  · exact next_setReg_onlyRegSuch s rd fun k => BitVec.getLsbD_and
  · refine next_setReg_onlyRegSuch s rd fun k => ?_
    rw [BitVec.getLsbD_and, immOperand_getLsbD]
  · exact next_setReg_onlyRegSuch s rd fun k => BitVec.getLsbD_or
  · refine next_setReg_onlyRegSuch s rd fun k => ?_
    rw [BitVec.getLsbD_or, immOperand_getLsbD]
  · exact next_setReg_onlyRegSuch s rd fun k => BitVec.getLsbD_xor
  · refine next_setReg_onlyRegSuch s rd fun k => ?_
    rw [BitVec.getLsbD_xor, immOperand_getLsbD]

/-! ### Arithmetic, R82 to R85 -/

/-- Settles O3: the value written is the word operation, whose number is the exact result mod 65536. -/
theorem arithmeticWrapsAndWritesRdOnly : Obligations.ArithmeticWrapsAndWritesRdOnly := by
  intro s rd rs ign imm
  refine ⟨?_, ?_, ?_, ?_, ?_, ?_⟩
  · exact next_setReg_onlyRegSuch s rd (BitVec.toNat_add _ _)
  · refine next_setReg_onlyRegSuch s rd ?_
    rw [BitVec.toNat_add, immOperand_toNat]
  · exact next_setReg_onlyRegSuch s rd (toNat_sub_int _ _)
  · refine next_setReg_onlyRegSuch s rd ?_
    rw [toNat_sub_int, immOperand_toNat]
  · exact next_setReg_onlyRegSuch s rd (BitVec.toNat_mul _ _)
  · refine next_setReg_onlyRegSuch s rd ?_
    rw [BitVec.toNat_mul, immOperand_toNat]

/-- Settles O5: a zero divisor is a row of the table of causes; any other divides as unsigned numbers do. -/
theorem divideIsUnsignedAndFaultsOnZero : Obligations.DivideIsUnsignedAndFaultsOnZero := by
  intro s rd rs ign imm
  constructor
  · split_ifs with hb
    · exact trapsWith_of_faultCondition (cause := .divideByZero) ⟨rfl, .inl ⟨rd, rs, ign, rfl, hb⟩⟩
    · rw [exec, execDivReg, divide_ok (b := regOperand s rs) hb]
      exact next_setReg_onlyRegSuch s rd BitVec.toNat_udiv
  · split_ifs with hb
    · exact trapsWith_of_faultCondition (cause := .divideByZero) ⟨rfl, .inr ⟨rd, by rw [hb]⟩⟩
    · rw [exec, execDivImm, divide_ok (immOperand_ne_zero hb)]
      refine next_setReg_onlyRegSuch s rd ?_
      rw [BitVec.toNat_udiv, immOperand_toNat]

/-! ### Shifts, R90 to R94 -/

theorem shiftLeft_toNat (a : Word) (n : Nat) : (shiftLeft a n).toNat = a.toNat * 2 ^ n % 65536 := by
  rw [shiftLeft, BitVec.toNat_shiftLeft, Nat.shiftLeft_eq]

theorem shiftRight_toNat (a : Word) (n : Nat) : (shiftRight a n).toNat = a.toNat / 2 ^ n := by
  rw [shiftRight, BitVec.toNat_ushiftRight, Nat.shiftRight_eq_div_pow]

theorem shiftArith_toInt (a : Word) (n : Nat) : (shiftArith a n).toInt = a.toInt / 2 ^ n := by
  rw [shiftArith, BitVec.toInt_sshiftRight, Int.shiftRight_eq_div_pow]
  norm_cast

theorem rotateRight16_getLsbD (a : Word) (n : Nat) {k : Nat} (hk : k < 16) :
    (rotateRight16 a n).getLsbD k = a.getLsbD ((k + n) % 16) := by
  rw [rotateRight16, BitVec.getLsbD_rotateRight, Bool.cond_decide, decide_eq_true hk, Bool.true_and]
  split_ifs <;> congr 1 <;> omega

/-- Settles O6: the value written by each shift, for the immediate's amount. -/
theorem shiftsByImmediateAmount : Obligations.ShiftsByImmediateAmount := fun s rd _ =>
  ⟨next_setReg_onlyRegSuch s rd (shiftLeft_toNat _ _), next_setReg_onlyRegSuch s rd (shiftRight_toNat _ _),
    next_setReg_onlyRegSuch s rd (shiftArith_toInt _ _),
    next_setReg_onlyRegSuch s rd fun _ hk => rotateRight16_getLsbD _ _ hk⟩

/-- A shift by a register that its index names writes the shifted value. -/
theorem shiftByReg_onlyRegSuch {P : Word → Prop} {idx : BitVec 6} (hx : idx.toNat ≤ 7) (f : Word → Nat → Word)
    (w : Word) (s : State) (rd : Reg) (h : P (f (s.reg rd) (s.reg (Reg.ofBits (idx.setWidth 3))).toNat)) :
    onlyRegSuch rd P s (complete w s (shiftByReg f rd idx s)) := by
  rw [shiftByReg_ok hx]
  exact next_setReg_onlyRegSuch s rd h

/-- Settles O7: an index of at most 7 names the amount's register; any other is a row of the table of causes. -/
theorem shiftsByRegisterAmountOrFault : Obligations.ShiftsByRegisterAmountOrFault := by
  intro s rd idx
  split_ifs with hx
  · rintro n rfl
    exact ⟨shiftByReg_onlyRegSuch hx shiftLeft _ s rd (shiftLeft_toNat _ _),
      shiftByReg_onlyRegSuch hx shiftRight _ s rd (shiftRight_toNat _ _),
      shiftByReg_onlyRegSuch hx shiftArith _ s rd (shiftArith_toInt _ _),
      shiftByReg_onlyRegSuch hx rotateRight16 _ s rd fun _ hk => rotateRight16_getLsbD _ _ hk⟩
  · intro i hi
    exact trapsWith_of_faultCondition (cause := .registerIndexOutOfRange)
      (.inl ⟨rd, idx, hi, by omega, setWidth16_toNat (by omega) idx⟩)

/-! ### MOV, R95, and the immediate operands, R61 -/

/-- Settles O4: the value written is the operand. -/
theorem moveReplacesRdWithOperand : Obligations.MoveReplacesRdWithOperand := fun s rd _ _ imm =>
  ⟨next_setReg_onlyRegSuch s rd rfl, next_setReg_onlyRegSuch s rd (immOperand_toNat imm)⟩

theorem val9Operand_toNat (val : BitVec 9) : (val9Operand val).toNat = val.toNat := setWidth16_toNat (by omega) val

/-- Settles O21: both extensions are by zeros. -/
theorem immediateOperandsAreZeroExtended : Obligations.ImmediateOperandsAreZeroExtended :=
  ⟨immOperand_toNat, val9Operand_toNat⟩

end Sys2Proof.Machine
end

section
/-! LD, ST and the stack (44_load_store.md, 45_stack.md, 48_call_ret.md): the next state of each instruction when it
does not raise, said once; the other side is a row of the table of causes. -/

namespace Sys2Proof.Machine

/-! ### LD and ST, R96 to R98 -/

/-- Settles O20: a sign-extended offset moves a word by its signed value, and six bits hold -32 to 31. -/
theorem effectiveAddressAddsSignedOffset : Obligations.EffectiveAddressAddsSignedOffset := by
  intro s rb off
  have hlo := BitVec.le_toInt off
  have hhi := BitVec.toInt_lt (x := off)
  exact ⟨toNat_add_signExtend _ off, by simpa using hlo, by omega⟩

theorem exec_ld {s : State} {rb : Reg} {off : BitVec 6} (h : isProtected (effectiveAddress s rb off) = false)
    (rd : Reg) :
    exec (.ld rd rb off) s = .next (s.setReg rd (s.readMem (effectiveAddress s rb off))) := by
  rw [exec, execLd, dataAddress_ok h]
  rfl

theorem exec_st {s : State} {rb : Reg} {off : BitVec 6} (h : isProtected (effectiveAddress s rb off) = false)
    (rs : Reg) :
    exec (.st rs rb off) s = .next (s.writeMem (effectiveAddress s rb off) (s.reg rs)) := by
  rw [exec, execSt, dataAddress_ok h]
  rfl

theorem not_isProtected {a : Word} (h : ¬(0x0100 ≤ a.toNat ∧ a.toNat ≤ 0x7FFF)) : isProtected a = false :=
  Bool.eq_false_iff.mpr (mt (isProtected_iff a).mp h)

/-- Settles O8: `exec_ld`, or the row of ProtectedAccess. -/
theorem loadReadsUnlessProtected : Obligations.LoadReadsUnlessProtected := by
  rintro s rd rb off ea rfl
  split_ifs with hp
  · exact trapsWith_of_faultCondition (cause := .protectedAccess) ⟨hp.1, hp.2, rd, rb, off, .inl rfl, rfl⟩
  · rw [exec_ld (not_isProtected hp)]
    exact next_setReg_onlyRegSuch s rd rfl

/-- Settles O9: `exec_st`, or the row of ProtectedAccess. -/
theorem storeWritesUnlessProtected : Obligations.StoreWritesUnlessProtected := by
  rintro s rs rb off ea rfl
  split_ifs with hp
  · exact trapsWith_of_faultCondition (cause := .protectedAccess) ⟨hp.1, hp.2, rs, rb, off, .inr rfl, rfl⟩
  · exact ⟨_, exec_st (not_isProtected hp) rs, State.readMem_writeMem_same _ _ _, sameMemExcept_writeMem _ _ _,
      fun _ _ => rfl, ⟨rfl, rfl, rfl⟩, rfl⟩

/-- Settles O33: the store leaves the word at the next address, so that is what the next step decodes. -/
theorem storeIsSeenByTheNextFetch : Obligations.StoreIsSeenByTheNextFetch := by
  intro s rs rb off hr hst hea hp
  have hea' : effectiveAddress (advancePc s) rb off = s.pc + 1 := hea
  have ht : step s = .next ((advancePc s).writeMem (s.pc + 1) (s.reg rs)) := by
    rw [step_running hr, fetchWord, hst, exec_st (by rw [hea']; exact hp), hea', advancePc_reg]
  refine ⟨_, advancePc ((advancePc s).writeMem (s.pc + 1) (s.reg rs)), ht, ?_, rfl, ?_, rfl, rfl, ?_⟩
  · rw [step_running (by exact hr), fetchWord, State.writeMem_pc, advancePc_pc, State.readMem_writeMem_same]
  · show s.pc + 1 + 1 = s.pc + 2
    rw [BitVec.add_assoc]
    rfl
  · rw [advancePc_readMem, State.readMem_writeMem_same]

/-! ### The stack, R37, R38 and R100 to R103 -/

/-- The state a Push of `v` leaves (R37). -/
def afterPush (v : Word) (s : State) : State := (s.writeMem (s.reg .r0) v).setReg .r0 (s.reg .r0 - 1)

/-- The state a CALL leaves (R112). -/
def afterCall (off : BitVec 11) (s : State) : State := (afterPush s.pc s).setPc (callTarget s off)

/-- The state a Pop leaves: SP raised, the word still in memory (R38). -/
def afterPop (s : State) : State := s.setReg .r0 (s.reg .r0 + 1)

@[simp] theorem afterPush_reg_r0 (v : Word) (s : State) : (afterPush v s).reg .r0 = s.reg .r0 - 1 :=
  State.reg_setReg_same _ _ _

@[simp] theorem afterPush_readMem_sp (v : Word) (s : State) : (afterPush v s).readMem (s.reg .r0) = v :=
  State.readMem_writeMem_same _ _ _

theorem afterPush_reg_ne (v : Word) (s : State) {q : Reg} (h : q ≠ .r0) : (afterPush v s).reg q = s.reg q :=
  State.reg_setReg_ne _ _ h

theorem sameMemExcept_afterPush (v : Word) (s : State) : sameMemExcept [s.reg .r0] s (afterPush v s) :=
  sameMemExcept_writeMem s _ v

/-- `pushed` names the effect of a Push; no wrap happens in the stack range. -/
theorem pushed_afterPush (v : Word) {s : State} (h : 0xF000 ≤ (s.reg .r0).toNat) : pushed v s (afterPush v s) := by
  refine ⟨afterPush_readMem_sp v s, ?_, fun q hq => afterPush_reg_ne v s (by simpa using hq),
    sameMemExcept_afterPush v s, rfl, rfl, rfl⟩
  have hlt := (s.reg .r0).isLt
  rw [afterPush_reg_r0, BitVec.toNat_sub, show BitVec.toNat (1 : Word) = 1 from rfl]
  omega

theorem exec_pushReg {s : State} {idx : BitVec 9} (hx : idx.toNat ≤ 7) (h : 0xF000 ≤ (s.reg .r0).toNat)
    (ign : BitVec 1) : exec (.pushReg idx ign) s = .next (afterPush (s.reg (Reg.ofBits (idx.setWidth 3))) s) := by
  rw [exec, execPushReg, wideRegIndex_ok hx]
  exact congrArg (complete _ s) (push_ok _ h)

theorem exec_pushImm {s : State} (h : 0xF000 ≤ (s.reg .r0).toNat) (val : BitVec 9) (ign : BitVec 1) :
    exec (.pushImm val ign) s = .next (afterPush (val9Operand val) s) :=
  congrArg (complete _ s) (push_ok _ h)

theorem exec_call {s : State} (h : 0xF000 ≤ (s.reg .r0).toNat) (off : BitVec 11) :
    exec (.call off) s = .next (afterCall off s) := by
  rw [exec, execCall, push_ok _ h]
  rfl

theorem exec_pop {s : State} {idx : BitVec 9} (hx : idx.toNat ≤ 7) (h : s.reg .r0 ≠ 0xFFFF) (ign : BitVec 1) :
    exec (.pop idx ign) s =
      .next ((afterPop s).setReg (Reg.ofBits (idx.setWidth 3)) (s.readMem (s.reg .r0 + 1))) := by
  rw [exec, execPop, wideRegIndex_ok hx]
  show complete _ s ((popWord s).map _) = _
  rw [popWord_ok h]
  rfl

theorem exec_ret {s : State} (h : s.reg .r0 ≠ 0xFFFF) (ign : BitVec 11) :
    exec (.ret ign) s = .next ((afterPop s).setPc (s.readMem (s.reg .r0 + 1))) := by
  rw [exec, execRet, popWord_ok h]
  rfl

/-- Settles O10: both forms leave `afterPush`, of the register or of the zero-extended value. -/
theorem pushStoresThenDecrements : Obligations.PushStoresThenDecrements := fun _ h =>
  ⟨fun _ ign hx => ⟨_, exec_pushReg hx h ign, pushed_afterPush _ h, rfl⟩,
    fun val ign => ⟨_, _, exec_pushImm h val ign, val9Operand_toNat val, pushed_afterPush _ h, rfl⟩⟩

/-- Settles O11, by the row of StackOverflow. -/
theorem pushBelowStackRangeOverflows : Obligations.PushBelowStackRangeOverflows := fun _ h =>
  ⟨fun idx ign hx => trapsWith_of_faultCondition (cause := .stackOverflow) ⟨rfl, h, .inl ⟨idx, ign, rfl, hx⟩⟩,
    fun val ign => trapsWith_of_faultCondition (cause := .stackOverflow) ⟨rfl, h, .inr (.inl ⟨val, ign, rfl⟩)⟩,
    fun off => trapsWith_of_faultCondition (cause := .stackOverflow) ⟨rfl, h, .inr (.inr ⟨off, rfl⟩)⟩⟩

/-- Settles O12: the destination is written last, over the raised SP when it is r0. -/
theorem popIncrementsThenLoads : Obligations.PopIncrementsThenLoads := by
  rintro s idx ign rd h hx rfl
  refine ⟨_, exec_pop hx h ign, State.reg_setReg_same _ _ _, fun hne => ?_, fun q hq => ?_, fun _ _ => rfl,
    ⟨rfl, rfl, rfl⟩, rfl⟩
  · rw [State.reg_setReg_ne _ _ hne.symm, afterPop, State.reg_setReg_same]
  · simp only [List.mem_cons, List.not_mem_nil, or_false, not_or] at hq
    rw [State.reg_setReg_ne _ _ hq.2, afterPop, State.reg_setReg_ne _ _ hq.1]

/-- Settles O13, by the row of StackUnderflow. -/
theorem popOfEmptyStackUnderflows : Obligations.PopOfEmptyStackUnderflows := fun _ h =>
  ⟨fun idx ign hx =>
      trapsWith_of_faultCondition (cause := .stackUnderflow) ⟨h.symm, rfl, .inl ⟨idx, ign, rfl, hx⟩⟩,
    fun ign => trapsWith_of_faultCondition (cause := .stackUnderflow) ⟨h.symm, rfl, .inr ⟨ign, rfl⟩⟩⟩

/-- Settles O14, by the row of RegisterIndexOutOfRange, which asks nothing of SP. -/
theorem stackIndexFaultComesFirst : Obligations.StackIndexFaultComesFirst := fun _ idx ign _ hx hi =>
  trapsWith_of_faultCondition (cause := .registerIndexOutOfRange)
    (.inr ⟨idx, ign, hi, hx, setWidth16_toNat (by omega) idx⟩)

/-- Settles O15, by the row of UnknownOpcode. -/
theorem reservedStackModeIsUnknownOpcode : Obligations.ReservedStackModeIsUnknownOpcode := fun _ ign =>
  trapsWith_of_faultCondition (cause := .unknownOpcode) ⟨rfl, ign, rfl⟩

/-! ### CALL and RET, R112 and R113 -/

/-- Settles O18: a Push of the post-fetch pc, then the jump, which moves the pc alone. -/
theorem callPushesReturnAddressAndJumps : Obligations.CallPushesReturnAddressAndJumps := fun s off h =>
  ⟨_, exec_call h off, pushed_afterPush s.pc h, toNat_add_signExtend s.pc off⟩

/-- Settles O19: a Pop into the pc. -/
theorem returnPopsThePc : Obligations.ReturnPopsThePc := fun s ign h =>
  ⟨_, exec_ret h ign, rfl, State.reg_setReg_same s .r0 _, sameRegsExcept_setReg s (rd := .r0) _ (by simp),
    fun _ _ => rfl, ⟨rfl, rfl, rfl⟩⟩

/-! ### A Pop after a Push -/

/-- A stack with a word pushed in the stack range is not empty. -/
theorem afterPush_not_empty (v : Word) {s : State} (h : 0xF000 ≤ (s.reg .r0).toNat) :
    (afterPush v s).reg .r0 ≠ 0xFFFF := by
  intro he
  obtain ⟨_, hsp, _⟩ := pushed_afterPush v h
  rw [he] at hsp
  have := (s.reg .r0).isLt
  have : BitVec.toNat (0xFFFF : Word) = 65535 := rfl
  omega

/-- Above the SP a Push leaves is the SP it found. -/
theorem afterPush_reg_r0_add_one (v : Word) (s : State) : (afterPush v s).reg .r0 + 1 = s.reg .r0 := by
  rw [afterPush_reg_r0, BitVec.sub_add_cancel]

/-- A Pop after a Push gives every register back, SP too. -/
theorem afterPop_afterPush_reg (v : Word) (s : State) (q : Reg) : (afterPop (afterPush v s)).reg q = s.reg q := by
  rw [afterPop, State.reg_setReg, afterPush_reg_r0_add_one]
  split_ifs with hq
  · rw [hq]
  · exact afterPush_reg_ne v s hq

/-- Settles O47: the Pop reads where the Push stored, and all registers but its destination are back. -/
theorem pushThenPopRestores : Obligations.PushThenPopRestores := by
  rintro s i j a b rd h hi hj rfl
  refine ⟨_, _, exec_pushReg hi h a, exec_pop hj (afterPush_not_empty _ h) b, ?_, fun hne => ?_, fun q hq => ?_,
    sameMemExcept_afterPush _ s⟩
  · rw [State.reg_setReg_same, afterPush_reg_r0_add_one, afterPush_readMem_sp]
  · rw [State.reg_setReg_ne _ _ hne.symm, afterPop_afterPush_reg]
  · simp only [List.mem_cons, List.not_mem_nil, or_false, not_or] at hq
    rw [State.reg_setReg_ne _ _ hq.2, afterPop_afterPush_reg]

/-- Settles O48: the RET is still at the target, since the Push stored elsewhere, and pops what CALL pushed. -/
theorem callThenReturnComesBack : Obligations.CallThenReturnComesBack := by
  intro s off ign hr h hcall hret hne
  have ht : step s = .next (afterCall off (advancePc s)) := by
    rw [step_running hr, fetchWord, hcall]
    exact exec_call (s := advancePc s) h off
  have hfetch : fetchWord (afterCall off (advancePc s)) = s.readMem (s.pc + 1 + off.signExtend 16) :=
    sameMemExcept_afterPush (s.pc + 1) (advancePc s) _ (List.mem_singleton.not.mpr hne)
  have hempty : (advancePc (afterCall off (advancePc s))).reg .r0 ≠ 0xFFFF :=
    afterPush_not_empty (s.pc + 1) (s := advancePc s) h
  have hu := step_running (s := afterCall off (advancePc s)) hr
  rw [hfetch, hret, exec_ret hempty] at hu
  refine ⟨_, _, ht, hu, rfl, ?_, RegFile.eq_of_get fun q => ?_, rfl, ?_, hr⟩
  · show (afterPush (s.pc + 1) (advancePc s)).readMem ((afterPush (s.pc + 1) (advancePc s)).reg .r0 + 1) = s.pc + 1
    rw [afterPush_reg_r0_add_one, afterPush_readMem_sp]
  · exact afterPop_afterPush_reg (s.pc + 1) (advancePc s) q
  · exact sameMemExcept_afterPush (s.pc + 1) (advancePc s)

end Sys2Proof.Machine
end

section
/-! Memory, reset and program files (20_memory.md section 1, 70_reset_and_hazards.md section 1): canonical memories are
determined by what they read as, loading places the program and nothing else, and a program file reads back. -/

namespace Sys2Proof.Machine

/-! ### Canonical memory -/

theorem Memory.read_cons (k : Nat) (v : Word) (rest : Memory) (a : Nat) :
    Memory.read ((k, v) :: rest) a = if k = a then v else Memory.read rest a := rfl

/-- A canonical memory lists every address that reads other than zero, so those lie in its range. -/
theorem Memory.bounds_of_read_ne_zero {lo a : Nat} {m : Memory} (hm : Memory.wfFrom lo m = true) (h : m.read a ≠ 0) :
    lo ≤ a ∧ a < Config.memWords := by
  induction m generalizing lo with
  | nil => exact absurd rfl h
  | cons cell rest ih =>
    obtain ⟨k, v⟩ := cell
    obtain ⟨hlo, hk, _, hrest⟩ := Memory.wfFrom_cons.mp hm
    rw [Memory.read_cons] at h
    split_ifs at h with hka
    · exact ⟨hka ▸ hlo, hka ▸ hk⟩
    · have ha := ih hrest h
      exact ⟨by omega, ha.2⟩

theorem Memory.read_eq_zero_of_lt {lo a : Nat} {m : Memory} (hm : Memory.wfFrom lo m = true) (ha : a < lo) :
    m.read a = 0 := by
  by_contra h
  have := (Memory.bounds_of_read_ne_zero hm h).1
  omega

/-- The first cell of a canonical memory is at the least address that reads other than zero. -/
theorem Memory.head_le_of_read_ne_zero {lo k a : Nat} {v : Word} {rest : Memory}
    (hm : Memory.wfFrom lo ((k, v) :: rest) = true) (h : Memory.read ((k, v) :: rest) a ≠ 0) : k ≤ a := by
  obtain ⟨_, hk, hv, hrest⟩ := Memory.wfFrom_cons.mp hm
  exact (Memory.bounds_of_read_ne_zero (Memory.wfFrom_cons.mpr ⟨le_refl k, hk, hv, hrest⟩) h).1

theorem Memory.read_head_ne_zero {lo k : Nat} {v : Word} {rest : Memory}
    (hm : Memory.wfFrom lo ((k, v) :: rest) = true) : Memory.read ((k, v) :: rest) k ≠ 0 := by
  obtain ⟨_, _, hv, _⟩ := Memory.wfFrom_cons.mp hm
  rw [Memory.read_cons, if_pos rfl]
  exact hv

theorem Memory.eq_of_read_eq {lo : Nat} {m m' : Memory} (hm : Memory.wfFrom lo m = true)
    (hm' : Memory.wfFrom lo m' = true) (h : ∀ a, m.read a = m'.read a) : m = m' := by
  induction m generalizing lo m' with
  | nil =>
    cases m' with
    | nil => rfl
    | cons cell' rest' => exact absurd (h cell'.1).symm (Memory.read_head_ne_zero hm')
  | cons cell rest ih =>
    obtain ⟨k, v⟩ := cell
    cases m' with
    | nil => exact absurd (h k) (Memory.read_head_ne_zero hm)
    | cons cell' rest' =>
      obtain ⟨k', v'⟩ := cell'
      have hle : k' ≤ k := Memory.head_le_of_read_ne_zero hm' (h k ▸ Memory.read_head_ne_zero hm)
      have hge : k ≤ k' := Memory.head_le_of_read_ne_zero hm (h k' ▸ Memory.read_head_ne_zero hm')
      obtain rfl : k = k' := Nat.le_antisymm hge hle
      obtain ⟨_, _, _, hrest⟩ := Memory.wfFrom_cons.mp hm
      obtain ⟨_, _, _, hrest'⟩ := Memory.wfFrom_cons.mp hm'
      have hv := h k
      rw [Memory.read_cons, Memory.read_cons, if_pos rfl, if_pos rfl] at hv
      have htail : rest = rest' := by
        refine ih hrest hrest' fun a => ?_
        by_cases hka : k = a
        · rw [Memory.read_eq_zero_of_lt hrest (by omega), Memory.read_eq_zero_of_lt hrest' (by omega)]
        · have ha := h a
          rw [Memory.read_cons, Memory.read_cons, if_neg hka, if_neg hka] at ha
          exact ha
      rw [hv, htail]

/-- Settles O36: addresses above the space read zero in both, so the memories read the same at every number. -/
theorem canonicalMemoryIsExtensional : Obligations.CanonicalMemoryIsExtensional := by
  intro m m' hm hm' h
  refine Memory.eq_of_read_eq hm hm' fun a => ?_
  by_cases ha : a < Config.memWords
  · have hword := h (BitVec.ofNat 16 a)
    rwa [BitVec.toNat_ofNat, Nat.mod_eq_of_lt (show a < 2 ^ 16 from ha)] at hword
  · have reads_zero {n : Memory} (hn : n.wf = true) : n.read a = 0 := by
      by_contra hne
      exact ha (Memory.bounds_of_read_ne_zero hn hne).2
    rw [reads_zero hm, reads_zero hm']

/-! ### Loading (R141) -/

theorem load_ok {program : List Word} (h : program.length ≤ Config.memWords) (s : State) :
    load program s = .ok { s with mem := placeWords s.mem Config.loadBase program } := by
  rw [load, if_neg (Nat.not_lt.mpr h)]

theorem load_error {program : List Word} (h : Config.memWords < program.length) (s : State) :
    load program s = .error .programTooLong := by
  rw [load, if_pos h]

/-- In an empty memory, loaded from address 0, address `b` holds word `b` of the program, or zero past its end. -/
theorem read_placeWords_nil (program : List Word) (b : Nat) :
    (placeWords [] Config.loadBase program).read b = program.getD b 0 := by
  rw [read_placeWords]
  by_cases hb : b < program.length
  · rw [dif_pos ⟨Nat.zero_le b, hb⟩, List.getD_eq_getElem _ _ hb]
    rfl
  · rw [dif_neg (fun h => hb h.2), List.getD_eq_default _ _ (Nat.le_of_not_lt hb)]
    rfl

/-- Settles O38: `load` sets memory alone, and the placed words keep the canonical form. -/
theorem loadPlacesTheProgram : Obligations.LoadPlacesTheProgram := by
  intro program
  split_ifs with h
  · have hwf := wf_placeWords State.reset_wf Config.loadBase program (by rw [Config.loadBase, Nat.zero_add]; exact h)
    obtain ⟨_, hflags, hfault⟩ := State.reset_inv
    exact ⟨_, load_ok h _, fun a => read_placeWords_nil program a.toNat, rfl, rfl, rfl, rfl, rfl, hwf, hflags, hfault⟩
  · exact load_error (Nat.lt_of_not_le h) _

/-! ### Program files (R142) -/

/-- A word is its high byte over its low byte. -/
theorem high_append_low (w : Word) : w.extractLsb' 8 8 ++ w.extractLsb' 0 8 = w := by
  apply BitVec.eq_of_toNat_eq
  have hw := w.isLt
  rw [toNat_append_add, toNat_field, toNat_field]
  omega

/-- In a file each word is two bytes that read back as the word. -/
theorem fileBytes_cons (order : ByteOrder) (w : Word) (ws : List Word) :
    ∃ b0 b1, fileBytes order (w :: ws) = b0 :: b1 :: fileBytes order ws ∧ wordOfBytes order b0 b1 = w := by
  cases order <;> exact ⟨_, _, rfl, high_append_low w⟩

theorem length_fileBytes (order : ByteOrder) (ws : List Word) : (fileBytes order ws).length = 2 * ws.length := by
  induction ws with
  | nil => rfl
  | cons w ws ih =>
    obtain ⟨b0, b1, hb, _⟩ := fileBytes_cons order w ws
    rw [hb, List.length_cons, List.length_cons, List.length_cons, ih]
    omega

theorem fileWords_fileBytes (order : ByteOrder) (ws : List Word) : fileWords order (fileBytes order ws) = .ok ws := by
  induction ws with
  | nil => rfl
  | cons w ws ih =>
    obtain ⟨b0, b1, hb, hw⟩ := fileBytes_cons order w ws
    rw [hb, fileWords, ih, hw]
    rfl

theorem fileWords_odd (order : ByteOrder) :
    ∀ bs : List Byte, bs.length % 2 = 1 → fileWords order bs = .error .oddByteCount
  | [], h => by cases h
  | [_], _ => rfl
  | b0 :: b1 :: rest, h => by
    rw [fileWords, fileWords_odd order rest (by simpa [List.length_cons, Nat.add_assoc] using h)]
    rfl

/-- Settles O39, by induction on the words, and on the bytes two at a time. -/
theorem programFilesReadBack : Obligations.ProgramFilesReadBack := fun order =>
  ⟨fun ws => ⟨length_fileBytes order ws, fileWords_fileBytes order ws⟩, fileWords_odd order⟩

end Sys2Proof.Machine
end

section
/-! The assembler (30_encoding.md sections 4 and 5, 47_branch.md): the instructions it emits are well formed, its errors
name their line and mnemonic, and its offsets land on their labels. -/

namespace Sys2Proof.Machine

/-! ### What reading a piece of an instruction line can give

One predicate says both what a reader accepts and what it complains of, so that each reader is taken apart once. -/

/-- The reading of an instruction line, or of a piece of it: an accepted value has the property `P`, and a complaint is
never one about a label definition (those are made before any instruction is read). -/
def AsmGives {α : Type} (P : α → Prop) (r : Except AsmFault α) : Prop :=
  (∀ a, r = .ok a → P a) ∧ ∀ f, r = .error f → f.1 ≠ .badLabel ∧ f.1 ≠ .duplicateLabel

section Rules

variable {α β : Type} {P : α → Prop} {Q : β → Prop}

theorem AsmGives.ok {a : α} (h : P a) : AsmGives P (.ok a) :=
  ⟨fun _ e => (by cases e; exact h), fun _ e => (by cases e)⟩

theorem AsmGives.error {f : AsmFault} (hb : f.1 ≠ .badLabel) (hd : f.1 ≠ .duplicateLabel) :
    AsmGives P (.error f) :=
  ⟨fun _ e => (by cases e), fun _ e => (by cases e; exact ⟨hb, hd⟩)⟩

theorem AsmGives.bind {r : Except AsmFault α} {g : α → Except AsmFault β} (hr : AsmGives P r)
    (hg : ∀ a, P a → AsmGives Q (g a)) : AsmGives Q (r >>= g) := by
  cases r with
  | ok a => exact hg a (hr.1 a rfl)
  | error f =>
    obtain ⟨hb, hd⟩ := hr.2 f rfl
    exact .error hb hd

theorem AsmGives.map {r : Except AsmFault α} {g : α → β} (hr : AsmGives P r) (hg : ∀ a, P a → Q (g a)) :
    AsmGives Q (r.map g) := by
  cases r with
  | ok a => exact .ok (hg a (hr.1 a rfl))
  | error f =>
    obtain ⟨hb, hd⟩ := hr.2 f rfl
    exact .error hb hd

end Rules

/-! ### Operands -/

theorem readReg_gives (t : Text) : AsmGives (fun _ => True) (readReg t) := by
  have bad : AsmGives (fun _ : Reg => True) (.error (.unknownRegister, t)) := .error (by simp) (by simp)
  unfold readReg
  split
  · split
    · split
      · exact .ok trivial
      · exact bad
    · exact bad
  · exact bad

theorem fitField_gives (field : AsmField) (n : Nat) (t : Text) (v : Int) :
    AsmGives (fun _ => True) (fitField field n t v) := by
  rcases fitField_cases field n t v with ⟨_, _, e⟩ | ⟨_, e⟩ <;> rw [e]
  · exact .ok trivial
  · exact .error (by simp) (by simp)

theorem readImm_gives (field : AsmField) (n : Nat) (t : Text) : AsmGives (fun _ => True) (readImm field n t) := by
  unfold readImm
  split
  · split
    · exact fitField_gives _ _ _ _
    · exact .error (by simp) (by simp)
  · exact .error (by simp) (by simp)

theorem readMemOperand_gives (t : Text) : AsmGives (fun _ => True) (readMemOperand t) := by
  unfold readMemOperand
  split
  · split
    · refine .bind (readReg_gives _) fun rb _ => ?_
      split
      · exact .bind (fitField_gives _ _ _ _) fun _ _ => .ok trivial
      · exact .error (by simp) (by simp)
    · exact .error (by simp) (by simp)
  · exact .error (by simp) (by simp)

/-- The reserved condition has no name (R108). -/
theorem readCond_gives (t : Text) : AsmGives (fun c => c ≠ .reserved) (readCond t) := by
  have hnames : ∀ p ∈ condNames, p.2 ≠ Cond.reserved := by decide
  unfold readCond
  split
  · obtain ⟨l, l', hl, _⟩ := List.lookup_eq_some_iff.mp ‹_›
    exact .ok (hnames (lower t, _) (by rw [hl]; simp))
  · exact .error (by simp) (by simp)

theorem readLabel_of_lookup {labels : LabelTable} {t : Text} {target : Nat} (h : labels.lookup t = some target)
    (field : AsmField) (n current : Nat) :
    readLabel field n labels current t = fitField field n t (labelDistance current target) := by
  rw [readLabel, h]

theorem readLabel_gives (field : AsmField) (n : Nat) (labels : LabelTable) (current : Nat) (t : Text) :
    AsmGives (fun _ => True) (readLabel field n labels current t) := by
  unfold readLabel
  split
  · exact fitField_gives _ _ _ _
  · exact .error (by simp) (by simp)

/-! ### Instructions -/

theorem asmAlu_gives {imm : Reg → BitVec 8 → Instr} {reg : Reg → Reg → Instr}
    (himm : ∀ rd v, (imm rd v).wellFormed = true) (hreg : ∀ rd rs, (reg rd rs).wellFormed = true) (d b : Text) :
    AsmGives (fun i => i.wellFormed = true) (asmAlu imm reg d b) := by
  refine .bind (readReg_gives d) fun rd _ => ?_
  split
  · exact .bind (readImm_gives _ _ b) fun v _ => .ok (himm rd v)
  · exact .bind (readReg_gives b) fun rs _ => .ok (hreg rd rs)

/-- A register's number, in a field of any width, is at most 7 (R67). -/
theorem toNat_setWidth_bits_le (r : Reg) (n : Nat) : (r.bits.setWidth n).toNat ≤ 7 := by
  have hlt := r.bits.isLt
  have hle := Nat.mod_le r.bits.toNat (2 ^ n)
  rw [BitVec.toNat_setWidth]
  omega

theorem asmShift_gives {imm reg : Reg → BitVec 6 → Instr} (himm : ∀ rd v, (imm rd v).wellFormed = true)
    (hreg : ∀ rd idx, idx.toNat ≤ 7 → (reg rd idx).wellFormed = true) (d b : Text) :
    AsmGives (fun i => i.wellFormed = true) (asmShift imm reg d b) := by
  refine .bind (readReg_gives d) fun rd _ => ?_
  split
  · exact .bind (readImm_gives _ _ b) fun v _ => .ok (himm rd v)
  · exact .bind (readReg_gives b) fun rs _ => .ok (hreg rd _ (toNat_setWidth_bits_le rs 6))

theorem asmMem_gives {mk : Reg → Reg → BitVec 6 → Instr} (hmk : ∀ r rb off, (mk r rb off).wellFormed = true)
    (r m : Text) : AsmGives (fun i => i.wellFormed = true) (asmMem mk r m) :=
  .bind (readReg_gives r) fun reg _ => .bind (readMemOperand_gives m) fun p _ => .ok (hmk reg p.1 p.2)

theorem wellFormed_stackReg (r : Reg) :
    (Instr.pushReg (r.bits.setWidth 9) 0).wellFormed = true ∧ (Instr.pop (r.bits.setWidth 9) 0).wellFormed = true := by
  constructor <;> rw [Instr.wellFormed, decide_eq_true (toNat_setWidth_bits_le r 9)] <;> rfl

theorem asmInstr_gives (labels : LabelTable) (current : Nat) (m : Mnemonic) (ops : List Text) :
    AsmGives (fun i => i.wellFormed = true) (asmInstr labels current m ops) := by
  unfold asmInstr
  split
  case h_2 | h_3 | h_4 | h_5 | h_6 | h_7 | h_8 | h_9 => exact asmAlu_gives (fun _ _ => rfl) (fun _ _ => rfl) _ _
  case h_10 | h_11 | h_12 | h_13 => exact asmShift_gives (fun _ _ => rfl) (fun _ _ hx => by exact decide_eq_true hx) _ _
  case h_14 | h_15 => exact asmMem_gives (fun _ _ _ => rfl) _ _
  case h_16 =>
    split
    · exact .map (readImm_gives _ _ _) fun _ _ => rfl
    · exact .map (readReg_gives _) fun r _ => (wellFormed_stackReg r).1
  case h_17 => exact .map (readReg_gives _) fun r _ => (wellFormed_stackReg r).2
  case h_18 => exact .bind (readReg_gives _) fun _ _ => .bind (readReg_gives _) fun _ _ => .ok rfl
  case h_19 =>
    exact .bind (readCond_gives _) fun c hc => .bind (readLabel_gives _ _ _ _ _) fun _ _ => .ok (bne_iff_ne.mpr hc)
  case h_20 => exact .map (readLabel_gives _ _ _ _ _) fun _ _ => rfl
  case h_1 | h_21 => exact .ok rfl
  all_goals exact .error (by simp) (by simp)

theorem asmText_gives (labels : LabelTable) (current : Nat) (t : Text) :
    AsmGives (fun i => i.wellFormed = true) (asmText labels current t) := by
  unfold asmText
  split
  · exact asmInstr_gives _ _ _ _
  · exact .error (by simp) (by simp)

/-! ### The passes -/

/-- Pass 2 emits one well-formed instruction for each instruction line. -/
theorem asmLines_ok {labels : LabelTable} {index : Nat} {ls : List SourceLine} {is : List Instr}
    (h : asmLines labels index ls = .ok is) :
    (∀ i ∈ is, i.wellFormed = true) ∧ is.length = (ls.filter fun l => !l.instr.isEmpty).length := by
  induction ls generalizing index is with
  | nil =>
    cases h
    simp
  | cons l rest ih =>
    unfold asmLines at h
    by_cases hl : l.instr.isEmpty = true
    · rw [if_pos hl] at h
      simpa [hl] using ih h
    · rw [if_neg hl] at h
      have hi := asmText_gives labels index l.instr
      split at h
      · cases h
      · rename_i i htext
        cases hr : asmLines labels (index + 1) rest with
        | error e =>
          rw [hr] at h
          cases h
        | ok others =>
          rw [hr] at h
          cases h
          obtain ⟨hwf, hlen⟩ := ih hr
          refine ⟨fun j hj => ?_, by simp [hl, hlen]⟩
          rcases List.mem_cons.mp hj with rfl | hj
          · exact hi.1 _ htext
          · exact hwf j hj

/-- The lines cannot be read, or pass 1 fails, or the answer is that of pass 2. -/
theorem assembleInstrs_cases (source : Text) :
    (∃ e, readLines 1 (splitLines source) = .error e ∧ assembleInstrs source = .error e) ∨
      ∃ ls, readLines 1 (splitLines source) = .ok ls ∧
        ((∃ e, collectLabels 0 [] ls = .error e ∧ assembleInstrs source = .error e) ∨
          ∃ labels, assembleInstrs source = asmLines labels 0 ls) := by
  unfold assembleInstrs
  cases readLines 1 (splitLines source) with
  | error e => exact .inl ⟨e, rfl, rfl⟩
  | ok ls =>
    refine .inr ⟨ls, rfl, ?_⟩
    show (∃ e, _ ∧ (collectLabels 0 [] ls >>= fun labels => asmLines labels 0 ls) = _) ∨
      ∃ labels, (collectLabels 0 [] ls >>= fun labels => asmLines labels 0 ls) = _
    cases collectLabels 0 [] ls with
    | error e => exact .inl ⟨e, rfl, rfl⟩
    | ok labels => exact .inr ⟨labels, rfl⟩

/-- An accepted source has lines that can be read, and its instructions are those of pass 2. -/
theorem assembleInstrs_ok {source : Text} {is : List Instr} (h : assembleInstrs source = .ok is) :
    ∃ ls labels, readLines 1 (splitLines source) = .ok ls ∧ asmLines labels 0 ls = .ok is := by
  rcases assembleInstrs_cases source with ⟨e, _, he⟩ | ⟨ls, hl, ⟨e, _, he⟩ | ⟨labels, ha⟩⟩
  · cases he.symm.trans h
  · cases he.symm.trans h
  · exact ⟨ls, labels, hl, ha.symm.trans h⟩

theorem assembleInstrs_of_assemble_error {source : Text} {e : AsmError} (h : assemble source = .error e) :
    assembleInstrs source = .error e := by
  unfold assemble at h
  cases hi : assembleInstrs source with
  | error e' =>
    rw [hi] at h
    cases h
    rfl
  | ok is =>
    rw [hi] at h
    cases h

/-- An error is made in reading the lines, in pass 1 or in pass 2. -/
theorem assemble_error {source : Text} {e : AsmError} (h : assemble source = .error e) :
    readLines 1 (splitLines source) = .error e ∨
      ∃ ls, readLines 1 (splitLines source) = .ok ls ∧
        (collectLabels 0 [] ls = .error e ∨ ∃ labels, asmLines labels 0 ls = .error e) := by
  have hi := assembleInstrs_of_assemble_error h
  rcases assembleInstrs_cases source with ⟨e', hl, he⟩ | ⟨ls, hl, ⟨e', hc, he⟩ | ⟨labels, ha⟩⟩
  · cases he.symm.trans hi
    exact .inl hl
  · cases he.symm.trans hi
    exact .inr ⟨ls, hl, .inl hc⟩
  · exact .inr ⟨ls, hl, .inr ⟨labels, ha.symm.trans hi⟩⟩

/-- Settles O45: pass 2, on the lines that were read. -/
theorem assembledInstructionsAreWellFormed : Obligations.AssembledInstructionsAreWellFormed := by
  intro source is h
  obtain ⟨ls, labels, hl, ha⟩ := assembleInstrs_ok h
  obtain ⟨hwf, hlen⟩ := asmLines_ok ha
  refine ⟨hwf, fun ls' hl' => ?_⟩
  cases hl.symm.trans hl'
  exact hlen

/-- Settles O50: reading and pass 1 fail on label definitions only, pass 2 on instructions only, and each names its
line. -/
theorem assemblyErrorsIdentifyMnemonicAndLine : Obligations.AssemblyErrorsIdentifyMnemonicAndLine := by
  intro source e h
  rcases assemble_error h with hl | ⟨ls, hl, hc | ⟨labels, ha⟩⟩
  · obtain ⟨hline, ⟨raw, hraw⟩, hkind, hmn⟩ := readLines_error hl
    exact ⟨hline, raw, hraw, by rw [if_pos (.inl hkind)]; exact hmn⟩
  · obtain ⟨l, hmem, hline, hkind, hmn⟩ := collectLabels_error hc
    obtain ⟨hnum, raw, hraw, _⟩ := readLines_ok hl l hmem
    rw [← hline] at hnum hraw
    exact ⟨hnum, raw, hraw, by rw [if_pos (.inr hkind)]; exact hmn⟩
  · obtain ⟨l, hmem, current, hne, htext, hline, hmn⟩ := asmLines_error ha
    obtain ⟨hnum, raw, hraw, hread⟩ := readLines_ok hl l hmem
    rw [← hline] at hnum hraw hread
    obtain ⟨hb, hd⟩ := (asmText_gives labels current l.instr).2 _ htext
    exact ⟨hnum, raw, hraw, by rw [if_neg (not_or.mpr ⟨hb, hd⟩)]; exact ⟨l, hread, hne, hmn⟩⟩

/-! ### Offsets (R68, R110) -/

/-- The offset of a label, added to the address after the instruction, is the label. -/
theorem offset_lands {n a b : Nat} {p : Word} {off : BitVec n} (hp : p.toNat = a) (hb : b < 65536)
    (hoff : off.toInt = labelDistance a b) : (p + 1 + off.signExtend 16).toNat = b := by
  have hp1 : (p + 1).toNat = (a + 1) % 65536 := by
    rw [BitVec.toNat_add, hp]
    rfl
  have hsum := toNat_add_signExtend (p + 1) off
  rw [hoff, labelDistance, hp1] at hsum
  omega

theorem step_br_taken {s : State} {c : Cond} {off : BitVec 9} (hr : s.running = true)
    (hw : s.readMem s.pc = encode (.br c off)) (hc : condHolds s.flags c = true) :
    step s = .next ((advancePc s).setPc (s.pc + 1 + off.signExtend 16)) := by
  rw [step_running hr, fetchWord, hw, decode_encode, exec_br, advancePc_flags, if_pos hc]
  rfl

theorem step_call {s : State} {off : BitVec 11} (hr : s.running = true) (hw : s.readMem s.pc = encode (.call off))
    (hsp : 0xF000 ≤ (s.reg .r0).toNat) : step s = .next (afterCall off (advancePc s)) := by
  rw [step_running hr, fetchWord, hw, decode_encode]
  exact exec_call (s := advancePc s) hsp off

/-- A value within a field's limits is the field's signed value. -/
theorem toInt_ofInt_off9 {v : Int} (hlo : -256 ≤ v) (hhi : v ≤ 255) : (BitVec.ofInt 9 v).toInt = v := by
  rw [BitVec.toInt_ofInt]
  exact Int.bmod_eq_of_le (by omega) (by omega)

theorem toInt_ofInt_off11 {v : Int} (hlo : -1024 ≤ v) (hhi : v ≤ 1023) : (BitVec.ofInt 11 v).toInt = v := by
  rw [BitVec.toInt_ofInt]
  exact Int.bmod_eq_of_le (by omega) (by omega)

/-- Settles O46: the label's distance fits its field exactly within the reach, and then the target is the label. -/
theorem assembledOffsetsLandOnTheirLabels : Obligations.AssembledOffsetsLandOnTheirLabels := by
  intro labels name a b hlookup ha hb
  have hd : labelDistance a b = (b : Int) - (a + 1) := rfl
  rw [readLabel_of_lookup hlookup, readLabel_of_lookup hlookup]
  constructor
  · rcases fitField_cases .off9 9 name (labelDistance a b) with ⟨hlo, hhi, e⟩ | ⟨hout, e⟩ <;>
      simp only [AsmField.least, AsmField.greatest] at *
    · rw [if_pos (by omega)]
      refine ⟨_, e, fun s c hr hpc hw hc => ⟨_, step_br_taken hr hw hc, ?_⟩⟩
      exact offset_lands hpc hb (toInt_ofInt_off9 hlo hhi)
    · rw [if_neg (by omega)]
      exact e
  · rcases fitField_cases .off11 11 name (labelDistance a b) with ⟨hlo, hhi, e⟩ | ⟨hout, e⟩ <;>
      simp only [AsmField.least, AsmField.greatest] at *
    · rw [if_pos (by omega)]
      refine ⟨_, e, fun s hr hpc hw hsp => ⟨_, step_call hr hw hsp, ?_⟩⟩
      exact offset_lands hpc hb (toInt_ofInt_off11 hlo hhi)
    · rw [if_neg (by omega)]
      exact e

end Sys2Proof.Machine
end
